-- ==== Sys2Proof/Word.lean ====
section
/-!
DEFINITION. The widths of the command port (spec/00_scope.md R11) and nothing else.
-/
namespace Sys2Proof

/-- One symbol, channel, or framebuffer byte (R120, R160). -/
abbrev Byte := BitVec 8

/-- A command word and a result beat are 64 bits (R11, R90). -/
abbrev Word := BitVec 64

/-- A pixel count, pixel index or byte offset is a 32-bit unsigned value (R11). -/
abbrev Count := BitVec 32

end Sys2Proof
end

