-- ==== Sys2Proof/Syntax.lean ====
section
/-!
DEFINITION. The commands: one constructor per row of spec/opcode_table.json (30_encoding.md R95), with the operands of R97.
-/
namespace Sys2Proof

/-- An RGB24 value: three independent 8-bit channels (40_colormath.md R120). -/
structure Rgb where
  r : Byte
  g : Byte
  b : Byte
deriving DecidableEq, Repr

/-- An HSL value in the layout of the HSLV operand and of the HSL result beat: hue in 9 bits, saturation and lightness in
8 (30_encoding.md R92, R100). It is a valid HSL value when the hue is at most 359 (40_colormath.md R121). -/
structure Hsl where
  h : BitVec 9
  s : Byte
  l : Byte
deriving DecidableEq, Repr

/-- The twelve commands (R95). -/
inductive Instr where
  /-- RGB2HSL, opcode 0x01 (R135). -/
  | rgb2hsl (c : Rgb)
  /-- HSL2RGB, opcode 0x02 (R136). -/
  | hsl2rgb (v : Hsl)
  /-- APPLYL, opcode 0x03 (R137). -/
  | applyl (base : Rgb) (lv : Byte)
  /-- ENCCH, opcode 0x10 (R165). -/
  | encch (v : Byte)
  /-- ENCPX, opcode 0x11 (R166). -/
  | encpx (c : Rgb)
  /-- BUFSZ, opcode 0x12 (R167). -/
  | bufsz (n : Count)
  /-- CONFIG, opcode 0x20 (R181). -/
  | config (n : Count)
  /-- CLEAR, opcode 0x21 (R182). -/
  | clear (c : Rgb)
  /-- SETPX, opcode 0x22 (R183). -/
  | setpx (i : Count) (c : Rgb)
  /-- SETPXF, opcode 0x23 (R184). -/
  | setpxf (i : Count) (c : Rgb)
  /-- RDBYTE, opcode 0x24 (R185). -/
  | rdbyte (a : Count)
  /-- FLUSH, opcode 0x25 (R186). -/
  | flush
deriving DecidableEq, Repr

/-- The colour `#000000`. -/
def Rgb.black : Rgb := ⟨0, 0, 0⟩

/-- The pseudo-command BLANK stands for `CLEAR #000000` (R104). -/
def Instr.blank : Instr := .clear Rgb.black

end Sys2Proof
end

