-- ==== Sys2Proof/Machine/Operands.lean ====
section
/-!
DEFINITION. The fields of a command word and the operand forms assembled from them (30_encoding.md R91, R92), and the
result beats (R99 to R102). The port carries the word whole, so there is no byte order here (92_eei_decisions.md D31).
-/
namespace Sys2Proof

/-- OP, `CMD[63:56]` (R91). -/
def opField (w : Word) : Byte := w.extractLsb' 56 8

/-- X, `CMD[55:32]` (R91). -/
def xField (w : Word) : BitVec 24 := w.extractLsb' 32 24

/-- Y, `CMD[31:0]` (R91). -/
def yField (w : Word) : Count := w.extractLsb' 0 32

/-- `CMD = OP * 2^56 + X * 2^32 + Y` (R91). -/
def wordOf (op : Byte) (x : BitVec 24) (y : Count) : Word := op ++ x ++ y

/-- COLOR: `r = X[23:16]`, `g = X[15:8]`, `b = X[7:0]` (R92). -/
def colorOf (x : BitVec 24) : Rgb := ⟨x.extractLsb' 16 8, x.extractLsb' 8 8, x.extractLsb' 0 8⟩

/-- The 24 bits `{r, g, b}` of a colour, red most significant (R12). -/
def Rgb.bits (c : Rgb) : BitVec 24 := c.r ++ c.g ++ c.b

/-- BYTE and LV: `Y[7:0]` (R92). -/
def byteOf (y : Count) : Byte := y.extractLsb' 0 8

/-- `Y[31:8]`, reserved in the forms BYTE and LV (R92). -/
def aboveByte (y : Count) : BitVec 24 := y.extractLsb' 8 24

/-- HSLV: `H = Y[24:16]`, `S = Y[15:8]`, `L = Y[7:0]` (R92). -/
def hslOf (y : Count) : Hsl := ⟨y.extractLsb' 16 9, y.extractLsb' 8 8, y.extractLsb' 0 8⟩

/-- `Y[31:25]`, reserved in the form HSLV (R92). -/
def aboveHsl (y : Count) : BitVec 7 := y.extractLsb' 25 7

/-- The 25 bits `{H[8:0], S, L}` of an HSL value (R92, R100). -/
def Hsl.bits (v : Hsl) : BitVec 25 := v.h ++ v.s ++ v.l

/-- An RGB24 result: `RES = zext_64({r, g, b})` (R99). -/
def rgbBeat (c : Rgb) : Word := c.bits.setWidth 64

/-- An HSL result: `RES[24:16] = H`, `RES[15:8] = S`, `RES[7:0] = L`, the rest 0 (R100). -/
def hslBeat (v : Hsl) : Word := v.bits.setWidth 64

/-- A list of 8 symbols in one beat, the first in stream order in bits 63:56 (R101). -/
def symbolsBeat (ss : List Byte) : Word := ss.foldl (fun acc b => (acc <<< 8) ||| b.setWidth 64) 0#64

/-- A count result, zero-extended and exact (R102): every count BUFSZ returns is below 2^37. -/
def countBeat (n : Nat) : Word := BitVec.ofNat 64 n

/-- A byte result: `RES = zext_64(FB[offset])` (R102). -/
def byteBeat (b : Byte) : Word := b.setWidth 64

end Sys2Proof
end

