-- ==== Sys2Proof/WellFormed.lean ====
section
/-!
DEFINITION. Which commands have an encoding. The operand fields of R92 fill their types exactly, so the one check is the
hue's range.
-/
namespace Sys2Proof

/-- A hue is in `[0, 360)` (40_colormath.md R121; 30_encoding.md R94). -/
def Hsl.valid (v : Hsl) : Bool := decide (v.h.toNat ≤ 359)

/-- Every operand is one its form admits (R92, R94). -/
def Instr.wellFormed : Instr → Bool
  | .rgb2hsl _  => true
  | .hsl2rgb v  => v.valid
  | .applyl _ _ => true
  | .encch _    => true
  | .encpx _    => true
  | .bufsz _    => true
  | .config _   => true
  | .clear _    => true
  | .setpx _ _  => true
  | .setpxf _ _ => true
  | .rdbyte _   => true
  | .flush      => true

end Sys2Proof
end

