-- ==== Sys2Proof/Decode.lean ====
section
/-!
DEFINITION. Decoding, total on every 64-bit word (30_encoding.md R97), the encoder after it (R95, R103), and the opcode
table of R95 as masks and patterns.
-/
namespace Sys2Proof

/-- Why a word is no command. Each of them is the status IllegalCommand of the command port (60_exceptions.md R242); no
constructor of this type is a refusal of the model. -/
inductive Illegal where
  /-- the opcode is none of R95 (R96) -/
  | unassignedOpcode (op : Byte)
  /-- a bit its form does not use is 1 (R93) -/
  | reservedBits (op : Byte)
  /-- the hue of an HSLV operand is 360 or more (R94) -/
  | hueOutOfRange (h : BitVec 9)
deriving DecidableEq, Repr

/-- What a word decodes to: exactly one command, or IllegalCommand (R97). -/
inductive Decoded where
  | command (i : Instr)
  | illegal (why : Illegal)
deriving DecidableEq, Repr

/-- The `need` of R97: a command whose reserved bits are all 0, or IllegalCommand (R93). -/
def need (op : Byte) (reservedClear : Bool) (i : Instr) : Decoded :=
  if reservedClear then .command i else .illegal (.reservedBits op)

/-- The hue check of R97's row 0x02 (R94). -/
def needHue (v : Hsl) : Decoded → Decoded
  | .command i => if v.valid then .command i else .illegal (.hueOutOfRange v.h)
  | .illegal e => .illegal e

/-- `decode(CMD)` given its opcode and its fields X and Y (R97). -/
def decodeFields (op : Byte) (x : BitVec 24) (y : Count) : Decoded :=
  if op = 0x01#8 then need op (y = 0#32) (.rgb2hsl (colorOf x))
  else if op = 0x02#8 then needHue (hslOf y) (need op (x = 0#24 ∧ aboveHsl y = 0#7) (.hsl2rgb (hslOf y)))
  else if op = 0x03#8 then need op (aboveByte y = 0#24) (.applyl (colorOf x) (byteOf y))
  else if op = 0x10#8 then need op (x = 0#24 ∧ aboveByte y = 0#24) (.encch (byteOf y))
  else if op = 0x11#8 then need op (y = 0#32) (.encpx (colorOf x))
  else if op = 0x12#8 then need op (x = 0#24) (.bufsz y)
  else if op = 0x20#8 then need op (x = 0#24) (.config y)
  else if op = 0x21#8 then need op (y = 0#32) (.clear (colorOf x))
  else if op = 0x22#8 then need op true (.setpx y (colorOf x))
  else if op = 0x23#8 then need op true (.setpxf y (colorOf x))
  else if op = 0x24#8 then need op (x = 0#24) (.rdbyte y)
  else if op = 0x25#8 then need op (x = 0#24 ∧ y = 0#32) .flush
  else .illegal (.unassignedOpcode op)

/-- `decode(CMD)`, a total function of the 64-bit word (R97). -/
def decode (w : Word) : Decoded := decodeFields (opField w) (xField w) (yField w)

/-- The opcode of each command (R95). -/
def Instr.opcode : Instr → Byte
  | .rgb2hsl _  => 0x01#8
  | .hsl2rgb _  => 0x02#8
  | .applyl _ _ => 0x03#8
  | .encch _    => 0x10#8
  | .encpx _    => 0x11#8
  | .bufsz _    => 0x12#8
  | .config _   => 0x20#8
  | .clear _    => 0x21#8
  | .setpx _ _  => 0x22#8
  | .setpxf _ _ => 0x23#8
  | .rdbyte _   => 0x24#8
  | .flush      => 0x25#8

/-- The field X of each command's word: the colour, or 0 where it is reserved (R95). -/
def Instr.x : Instr → BitVec 24
  | .rgb2hsl c   => c.bits
  | .hsl2rgb _   => 0#24
  | .applyl c _  => c.bits
  | .encch _     => 0#24
  | .encpx c     => c.bits
  | .bufsz _     => 0#24
  | .config _    => 0#24
  | .clear c     => c.bits
  | .setpx _ c   => c.bits
  | .setpxf _ c  => c.bits
  | .rdbyte _    => 0#24
  | .flush       => 0#24

/-- The field Y of each command's word, zero-extended (R92, R95). -/
def Instr.y : Instr → Count
  | .rgb2hsl _   => 0#32
  | .hsl2rgb v   => v.bits.setWidth 32
  | .applyl _ lv => lv.setWidth 32
  | .encch v     => v.setWidth 32
  | .encpx _     => 0#32
  | .bufsz n     => n
  | .config n    => n
  | .clear _     => 0#32
  | .setpx i _   => i
  | .setpxf i _  => i
  | .rdbyte a    => a
  | .flush       => 0#32

/-- The command word of a well-formed command (R91, R95, R103). -/
def encode (i : Instr) : Word := wordOf i.opcode i.x i.y

/-- One row of the opcode table: the bits a row fixes, and the values it fixes them to. -/
structure OpcodeRow where
  mnemonic : String
  mask     : Word
  pattern  : Word
deriving DecidableEq, Repr

/-- The opcode table of R95 with its reserved bits (R93). -/
def opcodeTable : List OpcodeRow :=
  [ ⟨"RGB2HSL", 0xFF000000FFFFFFFF#64, 0x0100000000000000#64⟩
  , ⟨"HSL2RGB", 0xFFFFFFFFFE000000#64, 0x0200000000000000#64⟩
  , ⟨"APPLYL",  0xFF000000FFFFFF00#64, 0x0300000000000000#64⟩
  , ⟨"ENCCH",   0xFFFFFFFFFFFFFF00#64, 0x1000000000000000#64⟩
  , ⟨"ENCPX",   0xFF000000FFFFFFFF#64, 0x1100000000000000#64⟩
  , ⟨"BUFSZ",   0xFFFFFFFF00000000#64, 0x1200000000000000#64⟩
  , ⟨"CONFIG",  0xFFFFFFFF00000000#64, 0x2000000000000000#64⟩
  , ⟨"CLEAR",   0xFF000000FFFFFFFF#64, 0x2100000000000000#64⟩
  , ⟨"SETPX",   0xFF00000000000000#64, 0x2200000000000000#64⟩
  , ⟨"SETPXF",  0xFF00000000000000#64, 0x2300000000000000#64⟩
  , ⟨"RDBYTE",  0xFFFFFFFF00000000#64, 0x2400000000000000#64⟩
  , ⟨"FLUSH",   0xFFFFFFFFFFFFFFFF#64, 0x2500000000000000#64⟩ ]

/-- The mnemonic of each command (R95). -/
def Instr.mnemonic : Instr → String
  | .rgb2hsl _  => "RGB2HSL"
  | .hsl2rgb _  => "HSL2RGB"
  | .applyl _ _ => "APPLYL"
  | .encch _    => "ENCCH"
  | .encpx _    => "ENCPX"
  | .bufsz _    => "BUFSZ"
  | .config _   => "CONFIG"
  | .clear _    => "CLEAR"
  | .setpx _ _  => "SETPX"
  | .setpxf _ _ => "SETPXF"
  | .rdbyte _   => "RDBYTE"
  | .flush      => "FLUSH"

/-- The table numbers a word's bits as R12 does and every row is one 64-bit word (R90), so the word is `w`'s low `nbits`
bits. -/
def tableWord (nbits w : Nat) : Word := BitVec.ofNat 64 (w % 2 ^ nbits)

/-- The command the decoder reads from a table word, none where it answers IllegalCommand. -/
def decodeTableWord (nbits w : Nat) : Option Instr :=
  match decode (tableWord nbits w) with
  | .command i => some i
  | .illegal _ => none

end Sys2Proof
end

