-- ==== Sys2Proof/Config.lean ====
section
/-!
DEFINITION. What one implementation fixes for the life of the hardware: the parameters N_MAX, SYM_LOW and SYM_HIGH
(spec/00_scope.md R7, R8; 10_state.md R40) and the constants of R10.
-/
namespace Sys2Proof

/-- The parameters of one chip. The step takes them as part of its argument: a state carries the `Config` of the chip
it is a state of, and no command, answer or reset changes it (R40, R272; log entry 1). -/
structure Config where
  /-- N_MAX, the largest pixel count CONFIG accepts (R7). -/
  nMax    : Nat
  /-- SYM_LOW, the symbol of a clear data bit (R8). -/
  symLow  : Byte
  /-- SYM_HIGH, the symbol of a set data bit (R8). -/
  symHigh : Byte
deriving DecidableEq, Repr

namespace Config

/-- The constraints the spec puts on the parameters: `1 <= N_MAX <= 2^32 - 1` (R7); the two symbols differ and neither is
ZERO (R8). -/
abbrev Valid (hw : Config) : Prop :=
  1 ≤ hw.nMax ∧ hw.nMax ≤ 4294967295 ∧ hw.symLow ≠ hw.symHigh ∧ hw.symLow ≠ 0#8 ∧ hw.symHigh ≠ 0#8

/-- GROUP, the bytes of one EncodedPixel (R10). -/
abbrev group : Nat := 24

/-- PREFIX_LEN and SUFFIX_LEN, four reset groups (R10). -/
abbrev resetLen : Nat := 96

/-- The symbol ZERO (R9). -/
abbrev symZero : Byte := 0#8

/-- The bytes of the framebuffer memory, `24 * (8 + N_MAX)` (R7, R36). -/
def fbSize (hw : Config) : Nat := group * (8 + hw.nMax)

/-- Which of the 2^32 - 1 admitted values N_MAX has. No body: the spec leaves it open (R7, log entry 1). -/
opaque nMaxIndex : Fin 4294967295

/-- Which of the 255 non-zero bytes SYM_LOW is. No body: the spec leaves it open (R8, log entry 1). -/
opaque symLowIndex : Fin 255

/-- Which of the 254 non-zero bytes other than SYM_LOW, in ascending order, SYM_HIGH is. No body: the spec leaves it open
(R8, log entry 1). -/
opaque symHighIndex : Fin 254

/-- The chip `State.reset` is a state of: any chip the spec admits, and no one in particular. -/
def chip : Config where
  nMax    := nMaxIndex.val + 1
  symLow  := BitVec.ofNat 8 (symLowIndex.val + 1)
  symHigh := BitVec.ofNat 8 (if symHighIndex.val < symLowIndex.val then symHighIndex.val + 1 else symHighIndex.val + 2)

end Config

end Sys2Proof
end

