-- ==== Sys2Proof/Machine/State.lean ====
section
/-!
DEFINITION. The state of VLEDS-CORE (10_state.md R32) and of the two agents beside it, HOST and TRANSPORT (00_scope.md R6),
the reasons a step can stop, and the state after reset (R46).
-/
namespace Sys2Proof.Machine

/-- PHASE: whether a flush is transferring bytes (R32, R37). -/
inductive Phase where
  | idle
  | stream
deriving DecidableEq, Repr

/-- The STATUS of a response (60_exceptions.md R240); codes 0x06 .. 0xFF are never produced. -/
inductive Status where
  | ok
  | invalidSize
  | indexOutOfRange
  | transportError
  | illegalCommand
  | notConfigured
deriving DecidableEq, Repr

/-- What an observer at the block's ports sees, in order. -/
inductive Event where
  /-- the command port accepts a word that host `client` offered (R37) -/
  | accept (client : Nat) (word : Word)
  /-- the response of a command, delivered to the host that issued it (R98, R248) -/
  | respond (client : Nat) (status : Status) (beats : List Word)
  /-- TRANSPORT accepts a byte of the frame (42_framebuffer.md R196) -/
  | emit (b : Byte)
  /-- reset is asserted (70_reset_and_hazards.md R270); the block itself answers nothing -/
  | reset
deriving DecidableEq, Repr

/-- TRANSPORT's answers (42_framebuffer.md R196, R198). No answer is no turn of TRANSPORT (R199). -/
inductive Answer where
  /-- the byte on offer is transmitted -/
  | accept
  /-- the whole frame is transmitted -/
  | done
  /-- the transfer failed, with TRANSPORT's own opaque value (R197) -/
  | fail (terr : Word)
deriving DecidableEq, Repr

/-- A command word a host has offered and the port has not accepted yet: it waits, it is not lost (R37, R278). -/
structure Offer where
  host : Nat
  word : Word
deriving DecidableEq, Repr

/-- Whose move the next step is, and what the spec leaves that agent free to do. -/
inductive Turn where
  /-- HOST: host `h` offers a command word (R6) -/
  | offer (h : Nat) (w : Word)
  /-- CORE: the port's arbitration takes host `h`'s oldest waiting command (20_memory.md R76) -/
  | grant (h : Nat)
  /-- TRANSPORT answers (R196, R198) -/
  | answer (a : Answer)
  /-- reset is asserted (R270); `garbage` is what the framebuffer memory holds afterwards, any byte values (R46) -/
  | reset (garbage : List Host.Cell)
deriving DecidableEq, Repr

/-- The state. `cfgValid`, `cfgN`, `fb`, `phase` and `pos` are the complete architectural state of R32. The other five
fields are the model's own: the chip's parameters, what is outside CORE, and the observation. -/
structure State where
  /-- the parameters of the chip, which nothing changes (R40, R272; log entry 1) -/
  hw       : Config
  /-- CFG_VALID, 1 bit: the framebuffer exists (R33) -/
  cfgValid : Bool
  /-- CFG_N, 32 bits: the pixel count (R34) -/
  cfgN     : Count
  /-- FB, the framebuffer memory (R36), in the canonical form of `Memory.wf` -/
  fb       : List Host.Cell
  /-- PHASE (R37) -/
  phase    : Phase
  /-- POS: the bytes of the current frame TRANSPORT has accepted (R38; its width: log entry 2) -/
  pos      : Nat
  /-- the host whose command CORE accepted last (log entry 9) -/
  client   : Nat
  /-- the commands offered on the port, oldest first (R37, R76) -/
  waiting  : List Offer
  /-- the turns to come; when there is none, CORE takes its own step if it has one (log entries 4, 5) -/
  turns    : List Turn
  /-- the observation, newest event first: outputs are not state of the block (R47; log entry 3) -/
  trace    : List Event
deriving DecidableEq, Repr

/-- Why the machine stops. -/
inductive Fault where
  /-- An access reached `offset`, which is not below `24 * (8 + N_MAX)`: FB has no such byte (R36). Raised by the reads
  and writes of FB in Machine/Ops.lean. Safe: it takes a CFG_N above N_MAX, which no CONFIG writes (R34, R181). -/
  | noSuchOffset (offset : Nat)
deriving DecidableEq, Repr

/-- Why the model gives no meaning. -/
inductive Refusal where
  /-- The instruction has no meaning in this model. Raised by an arm of `exec` only; no arm raises it now. Safe. -/
  | notModelled (mnemonic : String)
deriving DecidableEq, Repr

/-- What a command, a turn or a step ends in. -/
abbrev Outcome := Host.Outcome State Fault Refusal

/-- The state after reset (R46, R270): no framebuffer, CFG_N and POS 0, PHASE IDLE. The parameters are those of
`Config.chip`, which the spec leaves open. FB is unspecified after reset (R46): nothing is listed here, and a reset in the
middle of a run takes its contents from the turn that asserts it (log entry 6). No command is offered yet. -/
def State.reset : State where
  hw       := Config.chip
  cfgValid := false
  cfgN     := 0#32
  fb       := []
  phase    := .idle
  pos      := 0
  client   := 0
  waiting  := []
  turns    := []
  trace    := []

end Sys2Proof.Machine
end

