-- ==== Sys2Proof/Machine/SymbolCodec.lean ====
section
/-!
DEFINITION. CODEC: symbols, encode_channel, encode_pixel, buffer_size (41_symbolcodec.md R160 to R164). The table LUT is a read-only
constant, represented as the function that gives its entries (10_state.md R39).
-/
namespace Sys2Proof.Machine

/-- `sym(1) = SYM_HIGH`, `sym(0) = SYM_LOW` (R161). -/
def sym (hw : Config) (bit : Bool) : Byte := if bit then hw.symHigh else hw.symLow

/-- `LUT[v] = encode_channel(v)`: element k is `sym(v[7 - k])`, bit 7 first (R161, R162). -/
def encodeChannel (hw : Config) (v : Byte) : List Byte :=
  [ sym hw (v.getLsbD 7), sym hw (v.getLsbD 6), sym hw (v.getLsbD 5), sym hw (v.getLsbD 4)
  , sym hw (v.getLsbD 3), sym hw (v.getLsbD 2), sym hw (v.getLsbD 1), sym hw (v.getLsbD 0) ]

/-- `encode_pixel(c)`: green, red, blue, in that order (R163). -/
def encodePixel (hw : Config) (c : Rgb) : List Byte :=
  encodeChannel hw c.g ++ encodeChannel hw c.r ++ encodeChannel hw c.b

/-- `buffer_size(n) = 24 * (8 + n)` (41_symbolcodec.md R164). -/
def bufferSize (n : Nat) : Nat := Config.group * (8 + n)

end Sys2Proof.Machine
end

