-- ==== Sys2Proof/Machine/Flags.lean ====
section
/-!
DEFINITION. VLEDS-CORE has no condition codes and no flags (10_state.md R41). What a command reports instead is the STATUS
of its response: this file holds the status codes (60_exceptions.md R240) and the checks that give a command its status, in
the order of R243.
-/
namespace Sys2Proof.Machine

/-- The 8-bit code of a status (R240). -/
def Status.code : Status → BitVec 8
  | .ok              => 0x00#8
  | .invalidSize     => 0x01#8
  | .indexOutOfRange => 0x02#8
  | .transportError  => 0x03#8
  | .illegalCommand  => 0x04#8
  | .notConfigured   => 0x05#8

/-- The pixel count as a number. -/
def State.pixels (s : State) : Nat := s.cfgN.toNat

/-- BUFLEN, the length of the live framebuffer (R35). -/
def State.bufLen (s : State) : Nat := bufferSize s.pixels

/-- CONFIG: a count of 0 or above N_MAX is InvalidSize (R181, R242). -/
def State.configStatus (s : State) (n : Count) : Status :=
  if n.toNat = 0 ∨ s.hw.nMax < n.toNat then .invalidSize else .ok

/-- CLEAR and FLUSH: NotConfigured while no framebuffer exists (R33, R242). -/
def State.bufferStatus (s : State) : Status :=
  if s.cfgValid then .ok else .notConfigured

/-- SETPX and SETPXF: NotConfigured, then IndexOutOfRange for an index at or above CFG_N (R183, R184, R243). -/
def State.pixelStatus (s : State) (i : Count) : Status :=
  if s.cfgValid then if s.pixels ≤ i.toNat then .indexOutOfRange else .ok else .notConfigured

/-- RDBYTE: NotConfigured, then IndexOutOfRange for an offset at or above BUFLEN (R185, R243). -/
def State.offsetStatus (s : State) (a : Count) : Status :=
  if s.cfgValid then if s.bufLen ≤ a.toNat then .indexOutOfRange else .ok else .notConfigured

/-- HSL2RGB: IllegalCommand for a hue of 360 or more (R94, R136). -/
def hueStatus (h : BitVec 9) : Status :=
  if h.toNat ≤ 359 then .ok else .illegalCommand

end Sys2Proof.Machine
end

