-- ==== Sys2Proof/Machine/Ops.lean ====
section
/-!
DEFINITION. The named operations the commands and the stream are made of: the framebuffer memory (20_memory.md), responses
and errors (60_exceptions.md R241), the stream (42_framebuffer.md R195 to R198), reset (70_reset_and_hazards.md R270) and
the waiting commands (R37, R76). VLEDS-CORE has no trap: an error ends its command with a status, and there is nothing to
return from (R247).
-/
namespace Sys2Proof.Machine

/-! ### The framebuffer memory -/

/-- The canonical form of a memory: offsets strictly rising, and no entry equal to what an unlisted offset reads as. -/
abbrev Memory.wf (m : List Host.Cell) : Prop :=
  m.Pairwise (fun c d => c.1 < d.1) ∧ ∀ c ∈ m, c.2 ≠ 0#8

/-- What an offset that is not listed reads as: the 0x00 that CONFIG writes to the whole live buffer (R181). Before a
CONFIG no command reads FB (R36, log entry 6). -/
def Memory.unlisted : Byte := 0#8

/-- `FB[a]` (R14). -/
def readByte : List Host.Cell → Nat → Byte
  | [], _ => Memory.unlisted
  | c :: m, a => if c.1 = a then c.2 else readByte m a

/-- `MemRead(a, n)`: the list `FB[a], ..., FB[a+n-1]` (R14). -/
def memRead (m : List Host.Cell) (a : Nat) : Nat → List Byte
  | 0     => []
  | n + 1 => readByte m a :: memRead m (a + 1) n

/-- The entries of the bytes `bs` from offset `a` on, without those an unlisted offset gives anyway. -/
def cellsOf : Nat → List Byte → List Host.Cell
  | _, []      => []
  | a, b :: bs => if b = Memory.unlisted then cellsOf (a + 1) bs else (a, b) :: cellsOf (a + 1) bs

/-- The entries below offset `a`. -/
def cellsBelow (m : List Host.Cell) (a : Nat) : List Host.Cell := m.filter (fun c => decide (c.1 < a))

/-- The entries from offset `a` on. -/
def cellsFrom (m : List Host.Cell) (a : Nat) : List Host.Cell := m.filter (fun c => decide (a ≤ c.1))

/-- `MemWrite(a, n, bs)` with `n` the length of `bs`, all in one step (R14, R70). -/
def memWrite (m : List Host.Cell) (a : Nat) (bs : List Byte) : List Host.Cell :=
  cellsBelow m a ++ cellsOf a bs ++ cellsFrom m (a + bs.length)

/-- `MemWrite(a, n, [0x00] * n)`, without writing out the n zeros (`memZero_eq_memWrite`). -/
def memZero (m : List Host.Cell) (a n : Nat) : List Host.Cell :=
  cellsBelow m a ++ cellsFrom m (a + n)

/-- A memory of `size` bytes that holds the bytes of `cells`, in canonical form: what FB may hold after a reset (R46). -/
def memOfCells (size : Nat) (cells : List Host.Cell) : List Host.Cell :=
  cells.foldl (fun m c => if c.1 < size then memWrite m c.1 [c.2] else m) []

/-- The first offset of slot i (R62). -/
def slotOffset (i : Nat) : Nat := Config.resetLen + Config.group * i

/-- FB has the `n` offsets from `a` on (R36). -/
def State.hasOffsets (s : State) (a n : Nat) : Bool := decide (a + n ≤ s.hw.fbSize)

/-- Read FB at offset `a` and go on with the byte. -/
def State.readFB (s : State) (a : Nat) (k : Byte → Outcome) : Outcome :=
  if s.hasOffsets a 1 then k (readByte s.fb a) else .fault (.noSuchOffset a)

/-- Write `bs` to FB from offset `a` on, all in one step (R70), and go on in the new state. -/
def State.writeFB (s : State) (a : Nat) (bs : List Byte) (k : State → Outcome) : Outcome :=
  if s.hasOffsets a bs.length then k { s with fb := memWrite s.fb a bs } else .fault (.noSuchOffset (a + bs.length - 1))

/-! ### Responses and errors -/

/-- `respond(st, beats)`: the response goes to the host that issued the command (R14, R98, R248). -/
def State.respond (s : State) (st : Status) (beats : List Word) : State :=
  { s with trace := .respond s.client st beats :: s.trace }

/-- `raise E`: the command ends with status E, writes no state and returns no beats (R14, R241). -/
def State.raise (s : State) (e : Status) : State := s.respond e []

/-- Go on with a command whose checks gave `st`, or end it with that status (R241). -/
def State.guarded (s : State) (st : Status) (k : Outcome) : Outcome :=
  if st = .ok then k else .next (s.raise st)

/-! ### The stream -/

/-- A stream starts: `PHASE <- STREAM; POS <- 0` (R195). -/
def State.startStream (s : State) : State := { s with phase := .stream, pos := 0 }

/-- The frame ends with a response and `PHASE <- IDLE`; nothing else changes (R196, R198, R200). -/
def State.endStream (s : State) (st : Status) (beats : List Word) : State :=
  { s with phase := .idle }.respond st beats

/-- TRANSPORT accepted byte `b`: the event `emit(FB[POS])` and `POS <- POS + 1` (R196). -/
def State.emitted (s : State) (b : Byte) : State :=
  { s with pos := s.pos + 1, trace := .emit b :: s.trace }

/-- The byte step, while `POS < BUFLEN` (R196). It has no answer `done`: CORE waits. -/
def State.byteStep (s : State) : Answer → Outcome
  | .accept    => s.readFB s.pos (fun b => .next (s.emitted b))
  | .done      => .next s
  | .fail terr => .next (s.endStream .transportError [terr])

/-- The end step, when every byte is accepted (R198). It has no answer `accept`: CORE waits. -/
def State.endStep (s : State) : Answer → Outcome
  | .accept    => .next s
  | .done      => .next (s.endStream .ok [])
  | .fail terr => .next (s.endStream .transportError [terr])

/-- TRANSPORT's turn. While PHASE = IDLE nothing is on offer to it (R195). -/
def State.answered (s : State) (a : Answer) : Outcome :=
  match s.phase with
  | .idle   => .next s
  | .stream => if s.pos < s.bufLen then s.byteStep a else s.endStep a

/-! ### Reset -/

/-- Reset (R270, R271, R272): every field takes its reset value, FB holds any bytes at all, the parameters stay, and there
is no response. Commands that wait are not accepted; a host may offer them again (R271, log entry 11). -/
def State.doReset (s : State) (garbage : List Host.Cell) : State :=
  { State.reset with
    hw    := s.hw
    fb    := memOfCells s.hw.fbSize garbage
    turns := s.turns
    trace := .reset :: s.trace }

/-! ### The command port -/

/-- A host offers a command; it waits behind the commands offered before it (R37, R76). -/
def State.offered (s : State) (o : Offer) : State := { s with waiting := s.waiting ++ [o] }

/-- The oldest waiting command of host `h`, and the commands that go on waiting, in their order (R76). -/
def takeOffer (h : Nat) : List Offer → Option (Offer × List Offer)
  | []      => none
  | o :: os => if o.host = h then some (o, os) else (takeOffer h os).map (fun p => (p.1, o :: p.2))

/-- The port accepts a command word; `rest` goes on waiting (R37). -/
def State.accepted (s : State) (o : Offer) (rest : List Offer) : State :=
  { s with client := o.host, waiting := rest, trace := .accept o.host o.word :: s.trace }

end Sys2Proof.Machine
end

