-- ==== Sys2Proof/Machine/Codec.lean ====
section
/-!
DEFINITION. The commands of CODEC (41_symbolcodec.md R165 to R167). They write no state and work with CFG_VALID = 0.
-/
namespace Sys2Proof.Machine

/-- ENCCH (R165). -/
def execEncch (v : Byte) (s : State) : Outcome :=
  .next (s.respond .ok [symbolsBeat (encodeChannel s.hw v)])

/-- ENCPX: the beats of green, red and blue, in that order (R166). -/
def execEncpx (c : Rgb) (s : State) : Outcome :=
  .next (s.respond .ok
    [ symbolsBeat (encodeChannel s.hw c.g), symbolsBeat (encodeChannel s.hw c.r), symbolsBeat (encodeChannel s.hw c.b) ])

/-- BUFSZ: total, and independent of CFG_N and CFG_VALID (R167). -/
def execBufsz (n : Count) (s : State) : Outcome :=
  .next (s.respond .ok [countBeat (bufferSize n.toNat)])

end Sys2Proof.Machine
end

