-- ==== Sys2Proof/Machine/ColorMath.lean ====
section
/-!
DEFINITION. CONV and LPIPE: the colour functions of 40_colormath.md R122 to R133, on mathematical integers (00_scope.md
R13), narrowed once at the end. Every narrowing is exact (R127, R132; Laws/ColorMath.lean).
-/
namespace Sys2Proof.Machine

/-- `rnd(a, b)`: a/b to the nearest integer, halves up (R13). -/
def rnd (a b : Nat) : Nat := (2 * a + b) / (2 * b)

/-- MX (R122). -/
def maxChannel (c : Rgb) : Nat := max (max c.r.toNat c.g.toNat) c.b.toNat

/-- MN (R122). -/
def minChannel (c : Rgb) : Nat := min (min c.r.toNat c.g.toNat) c.b.toNat

/-- C, the chroma (R122). -/
def chroma (c : Rgb) : Nat := maxChannel c - minChannel c

/-- SUM (R122). -/
def channelSum (c : Rgb) : Nat := maxChannel c + minChannel c

/-- L, truncated (R123). -/
def lightness (c : Rgb) : Nat := channelSum c / 2

/-- S: 0 without chroma (R124), else the two branches of R125. -/
def saturation (c : Rgb) : Nat :=
  if chroma c = 0 then 0
  else if lightness c < 128 then rnd (255 * chroma c) (channelSum c)
  else rnd (255 * chroma c) (510 - channelSum c)

/-- HN, C times the hue in degrees, testing red, then green, then blue (R126). The subtractions of R126 are ordered so
that no intermediate is below 0. -/
def hueNumerator (c : Rgb) : Nat :=
  if maxChannel c = c.r.toNat then
    if c.g.toNat < c.b.toNat then 360 * chroma c - 60 * (c.b.toNat - c.g.toNat) else 60 * (c.g.toNat - c.b.toNat)
  else if maxChannel c = c.g.toNat then 120 * chroma c + 60 * c.b.toNat - 60 * c.r.toNat
  else 240 * chroma c + 60 * c.r.toNat - 60 * c.g.toNat

/-- H: 0 without chroma (R124), else `rnd(HN, C) mod 360` (R126). -/
def hue (c : Rgb) : Nat := if chroma c = 0 then 0 else rnd (hueNumerator c) (chroma c) % 360

/-- `rgb_to_hsl` (R122 to R126). -/
def rgbToHsl (c : Rgb) : Hsl :=
  ⟨BitVec.ofNat 9 (hue c), BitVec.ofNat 8 (saturation c), BitVec.ofNat 8 (lightness c)⟩

/-- LE, four times the reconstructed lightness `L + 1/4` (R129). -/
def lightnessEst (l : Nat) : Nat := 4 * l + 1

/-- Q, 1020 times the upper magnitude (R129). -/
def magnitudeQ (s l : Nat) : Nat :=
  if l < 128 then lightnessEst l * (255 + s) else 255 * lightnessEst l + 1020 * s - lightnessEst l * s

/-- P, 1020 times the lower magnitude (R129). -/
def magnitudeP (s l : Nat) : Nat := 510 * lightnessEst l - magnitudeQ s l

/-- The triangular function at `x` degrees, 61200 times the channel value (R130). -/
def tri (p q x : Nat) : Nat :=
  if x < 60 then 60 * p + (q - p) * x
  else if x < 180 then 60 * q
  else if x < 240 then 60 * p + (q - p) * (240 - x)
  else 60 * p

/-- One channel of `hsl_to_rgb` at `x` degrees, rounded once (R131). -/
def channelAt (s l x : Nat) : Nat := rnd (tri (magnitudeP s l) (magnitudeQ s l) (x % 360)) 61200

/-- `hsl_to_rgb` (R128 to R131). -/
def hslToRgb (v : Hsl) : Rgb :=
  if v.s = 0#8 then ⟨v.l, v.l, v.l⟩
  else if v.l = 0#8 then ⟨0#8, 0#8, 0#8⟩
  else if v.l = 255#8 then ⟨255#8, 255#8, 255#8⟩
  else
    ⟨BitVec.ofNat 8 (channelAt v.s.toNat v.l.toNat (v.h.toNat + 120)),
     BitVec.ofNat 8 (channelAt v.s.toNat v.l.toNat v.h.toNat),
     BitVec.ofNat 8 (channelAt v.s.toNat v.l.toNat (v.h.toNat + 240))⟩

/-- L2 of `apply_lightness`: `(L * lv) div 255`, truncated (R133). -/
def scaledLightness (l lv : Byte) : Byte := BitVec.ofNat 8 (l.toNat * lv.toNat / 255)

/-- `apply_lightness` (R133). -/
def applyLightness (base : Rgb) (lv : Byte) : Rgb :=
  hslToRgb ⟨(rgbToHsl base).h, (rgbToHsl base).s, scaledLightness (rgbToHsl base).l lv⟩

end Sys2Proof.Machine
end

