-- ==== Sys2Proof/Machine/Colour.lean ====
section
/-!
DEFINITION. The commands of CONV and LPIPE (40_colormath.md R135 to R137). They hold no state: each result depends on the
operands alone (R134).
-/
namespace Sys2Proof.Machine

/-- RGB2HSL (R135). -/
def execRgb2hsl (c : Rgb) (s : State) : Outcome :=
  .next (s.respond .ok [hslBeat (rgbToHsl c)])

/-- HSL2RGB (R136). The decoder refuses a hue of 360 or more before (R94); the command checks it once more, so that the
meaning is right of every `Hsl`. -/
def execHsl2rgb (v : Hsl) (s : State) : Outcome :=
  s.guarded (hueStatus v.h) (.next (s.respond .ok [rgbBeat (hslToRgb v)]))

/-- APPLYL (R137). -/
def execApplyl (base : Rgb) (lv : Byte) (s : State) : Outcome :=
  .next (s.respond .ok [rgbBeat (applyLightness base lv)])

end Sys2Proof.Machine
end

