-- ==== Sys2Proof/Machine/Framebuffer.lean ====
section
/-!
DEFINITION. The commands of FBENC (42_framebuffer.md R181 to R186).
-/
namespace Sys2Proof.Machine

/-- The state after a CONFIG that succeeds: `CFG_N <- n; CFG_VALID <- 1` and the whole live buffer 0x00 (R181). -/
def State.configured (s : State) (n : Count) : State :=
  { s with cfgN := n, cfgValid := true, fb := memZero s.fb 0 (bufferSize n.toNat) }

/-- CONFIG (R181). A count it accepts is at most N_MAX, so FB has every byte it writes (R36). -/
def execConfig (n : Count) (s : State) : Outcome :=
  .next (if s.configStatus n = .ok then (s.configured n).respond .ok [] else s.raise (s.configStatus n))

/-- The bytes CLEAR writes: one EncodedPixel per slot (R182). -/
def clearBytes (hw : Config) (n : Nat) (c : Rgb) : List Byte := (List.replicate n (encodePixel hw c)).flatten

/-- CLEAR: every slot in one step, neither reset region (R182). The slots are contiguous from slot 0 on (R62). -/
def execClear (c : Rgb) (s : State) : Outcome :=
  s.guarded s.bufferStatus
    (s.writeFB (slotOffset 0) (clearBytes s.hw s.pixels c) (fun t => .next (t.respond .ok [])))

/-- SETPX (R183). -/
def execSetpx (i : Count) (c : Rgb) (s : State) : Outcome :=
  s.guarded (s.pixelStatus i)
    (s.writeFB (slotOffset i.toNat) (encodePixel s.hw c) (fun t => .next (t.respond .ok [])))

/-- SETPXF: the slot write and the start of the stream in one step, so that no command comes between; the response comes
at the end of the frame (R184). -/
def execSetpxf (i : Count) (c : Rgb) (s : State) : Outcome :=
  s.guarded (s.pixelStatus i)
    (s.writeFB (slotOffset i.toNat) (encodePixel s.hw c) (fun t => .next t.startStream))

/-- RDBYTE (R185). -/
def execRdbyte (a : Count) (s : State) : Outcome :=
  s.guarded (s.offsetStatus a)
    (s.readFB a.toNat (fun b => .next (s.respond .ok [byteBeat b])))

/-- FLUSH (R186). -/
def execFlush (s : State) : Outcome :=
  s.guarded s.bufferStatus (.next s.startStream)

end Sys2Proof.Machine
end

