-- ==== Sys2Proof/Machine/Dispatch.lean ====
section
/-!
DEFINITION. The meaning of every command, one arm per row of the opcode table (30_encoding.md R95).
-/
namespace Sys2Proof.Machine

def exec (i : Instr) (s : State) : Host.Outcome State Fault Refusal :=
  match i with
  | .rgb2hsl c => Sys2Proof.Machine.execRgb2hsl c s
  | .hsl2rgb v => Sys2Proof.Machine.execHsl2rgb v s
  | .applyl base lv => Sys2Proof.Machine.execApplyl base lv s
  | .encch v => Sys2Proof.Machine.execEncch v s
  | .encpx c => Sys2Proof.Machine.execEncpx c s
  | .bufsz n => Sys2Proof.Machine.execBufsz n s
  | .config n => Sys2Proof.Machine.execConfig n s
  | .clear c => Sys2Proof.Machine.execClear c s
  | .setpx idx c => Sys2Proof.Machine.execSetpx idx c s
  | .setpxf idx c => Sys2Proof.Machine.execSetpxf idx c s
  | .rdbyte a => Sys2Proof.Machine.execRdbyte a s
  | .flush => Sys2Proof.Machine.execFlush s

end Sys2Proof.Machine
end

