-- ==== Sys2Proof/Machine/Port.lean ====
section
/-!
DEFINITION. The turns of the agents: HOST offers commands, the command port accepts one while PHASE = IDLE and CORE executes
it in the same step (10_state.md R37), TRANSPORT answers, reset is asserted.
-/
namespace Sys2Proof.Machine

/-- The port accepts `o` and CORE executes it: a word that does not decode ends with IllegalCommand and writes no state
(R96, R97, R242). -/
def State.runOffer (s : State) (o : Offer) (rest : List Offer) : Outcome :=
  match decode o.word with
  | .command i => exec i (s.accepted o rest)
  | .illegal _ => .next ((s.accepted o rest).raise .illegalCommand)

/-- The port's arbitration picks host `h`. While PHASE = STREAM the port accepts no command (R37), and a host that offers
none has none to be accepted. -/
def State.granted (s : State) (h : Nat) : Outcome :=
  match s.phase, takeOffer h s.waiting with
  | .idle, some (o, rest) => s.runOffer o rest
  | _, _                  => .next s

/-- CORE's own step when no turn is scheduled: it accepts the oldest waiting command; a stream waits for TRANSPORT (R199),
and with no command there is no step (R283, log entry 5). -/
def State.coreStep (s : State) : Outcome :=
  match s.phase, s.waiting with
  | .idle, o :: rest => s.runOffer o rest
  | _, _             => .next s

/-- One turn of one agent (R6). -/
def State.takeTurn (s : State) : Turn → Outcome
  | .offer h w     => .next (s.offered ⟨h, w⟩)
  | .grant h       => s.granted h
  | .answer a      => s.answered a
  | .reset garbage => .next (s.doReset garbage)

/-- The state in which host 0 offers `w` and the port is about to accept it: PHASE is IDLE and the next turn is the port's. -/
def State.withNextCommand (s : State) (w : Word) : State :=
  { s with phase := .idle, waiting := ⟨0, w⟩ :: s.waiting, turns := .grant 0 :: s.turns }

end Sys2Proof.Machine
end

