-- ==== Sys2Proof/Machine/Step.lean ====
section
/-!
DEFINITION. One step of the machine: the turn that is scheduled next, or CORE's own step.
-/
namespace Sys2Proof.Machine

/-- One step of HOST, CORE and TRANSPORT together (00_scope.md R6). -/
def step (s : State) : Host.Outcome State Fault Refusal :=
  match s.turns with
  | []      => s.coreStep
  | t :: ts => { s with turns := ts }.takeTurn t

/-- `s` with a command offered so that the very next step accepts and executes it. VLEDS-CORE fetches no instructions (R31):
a command comes from a host, and this stands for that host (log entry 8). -/
def State.withFetchWord (s : State) (nbits w : Nat) : State := s.withNextCommand (tableWord nbits w)

end Sys2Proof.Machine
end

