-- ==== Sys2Proof/Machine/Controller.lean ====
section
/-!
DEFINITION. The reference host of 48_host_protocol.md: what a host that follows the source keeps per LED, and its dialogue
with the command port, command by command and response by response. It lies outside the block (00_scope.md R4, R5): nothing
here is in `State`, and no meaning uses it (log entry 21).
-/
namespace Sys2Proof.Machine

/-! ### What the host keeps -/

/-- One tuple of the configuration list (R221). -/
structure LedConfig where
  label         : String
  origin        : Rgb
  maxBrightness : Byte
deriving DecidableEq, Repr

/-- A LedUnit (R220). Its identity is its place in the host's list, which is its pixel slot (R221). -/
structure LedUnit where
  origin        : Rgb
  maxBrightness : Byte
  lightness     : Byte
  derived       : Rgb
deriving DecidableEq, Repr

/-- INIT_LIGHTNESS is 0 or 255, and the source does not say which (R222). -/
inductive InitLightness where
  | off
  | full
deriving DecidableEq, Repr

def InitLightness.value : InitLightness → Byte
  | .off  => 0#8
  | .full => 255#8

/-- The LedUnit made from a tuple, given the colour derived for it (R221 to R223). -/
def LedUnit.make (init : InitLightness) (c : LedConfig) (derived : Rgb) : LedUnit where
  origin        := c.origin
  maxBrightness := c.maxBrightness
  lightness     := init.value
  derived       := derived

/-- The LedUnit of a tuple once the strip is constructed (R221 to R223). -/
def LedUnit.fromConfig (init : InitLightness) (c : LedConfig) : LedUnit :=
  .make init c (applyLightness c.origin init.value)

/-- The LedUnits of a configuration list, 1:1 and in the same order (R221). -/
def unitsOf (init : InitLightness) (cs : List LedConfig) : List LedUnit := cs.map (LedUnit.fromConfig init)

/-- A request to a LedUnit (R224). -/
inductive Request where
  | mainBrightness (v : Byte)
  | redChannel (v : Byte)
  | greenChannel (v : Byte)
  | blueChannel (v : Byte)
deriving DecidableEq, Repr

def Request.value : Request → Byte
  | .mainBrightness v => v
  | .redChannel v     => v
  | .greenChannel v   => v
  | .blueChannel v    => v

/-- The control surface admits the values `0 ..= max_brightness`, and the host passes them on unchanged (R224). The limit is
the control surface's: `applyAndFlush` does not check it (log entry 23). -/
def LedUnit.admits (u : LedUnit) (q : Request) : Bool := decide (q.value.toNat ≤ u.maxBrightness.toNat)

/-- The effect of a request on the unit (R225). MainBrightness computes from the authored colour, never from the derived
one (R226). -/
def LedUnit.afterRequest (u : LedUnit) : Request → LedUnit
  | .mainBrightness v => { u with lightness := v, derived := applyLightness u.origin v }
  | .redChannel v     => { u with derived := { u.derived with r := v } }
  | .greenChannel v   => { u with derived := { u.derived with g := v } }
  | .blueChannel v    => { u with derived := { u.derived with b := v } }

/-! ### Its dialogue with the command port -/

/-- The response to a command (30_encoding.md R98). -/
structure Response where
  status : Status
  beats  : List Word
deriving DecidableEq, Repr

/-- The colour a response holds in its one beat (30_encoding.md R99). -/
def Response.colour (r : Response) : Option Rgb :=
  match r.beats with
  | [w] => some (colorOf (w.extractLsb' 0 24))
  | _   => none

/-- What a host does: it ends with a result, writes its LedUnit `k` and goes on, or issues a command and goes on with the
response. It writes one unit at a time, so that hosts at work on different units do not touch each other's (R230). -/
inductive Dialogue (α : Type) where
  | finish (a : α)
  | store (k : Nat) (u : LedUnit) (rest : Dialogue α)
  | issue (i : Instr) (rest : Response → Dialogue α)

/-- One act of a host. -/
inductive HostAct where
  | store (k : Nat) (u : LedUnit)
  | issue (i : Instr)
deriving DecidableEq, Repr

/-- A host's acts up to the first command that has no response yet: those before the next command, and what is left. -/
def Dialogue.acts {α : Type} : Dialogue α → List HostAct × Dialogue α
  | .finish a     => ([], .finish a)
  | .store k u d  => (.store k u :: d.acts.1, d.acts.2)
  | .issue i rest => ([.issue i], .issue i rest)

/-- The host goes on when the command it has issued is answered. -/
def Dialogue.resume {α : Type} (r : Response) : Dialogue α → Dialogue α
  | .issue _ rest => rest r
  | d             => d

/-- The result, once there is one. -/
def Dialogue.result {α : Type} : Dialogue α → Option α
  | .finish a    => some a
  | .store _ _ _ => none
  | .issue _ _   => none

/-- All acts of a host whose commands get the responses `rs`, one each in order, and its result if they suffice. -/
def Dialogue.replay {α : Type} (d : Dialogue α) : List Response → List HostAct × Option α
  | []      => (d.acts.1, d.acts.2.result)
  | r :: rs =>
    (d.acts.1 ++ ((d.acts.2.resume r).replay rs).1, ((d.acts.2.resume r).replay rs).2)

/-- The units with unit `k` written: replaced, or added behind them as it is made (R221). -/
def writeUnit (us : List LedUnit) (k : Nat) (u : LedUnit) : List LedUnit :=
  if k < us.length then us.set k u else us ++ [u]

/-- The units after a host's acts. -/
def unitsAfter (us : List LedUnit) : List HostAct → List LedUnit
  | []                  => us
  | .store k u :: acts => unitsAfter (writeUnit us k u) acts
  | .issue _ :: acts   => unitsAfter us acts

/-! ### Construction -/

/-- How construction ends: with the response of its FLUSH, or aborted by the response that CONFIG gave (R223). `noCount`: a
list of 2^32 tuples or more has no CONFIG word, and its count is above every N_MAX (00_scope.md R7, log entry 21). -/
inductive Construction where
  | built (flush : Response)
  | aborted (response : Response)
  | noCount
deriving DecidableEq, Repr

/-- The loop over the units from number `k` on and the FLUSH after it: APPLYL gives the colour, the host keeps the unit, SETPX
writes the colour into the unit's own slot (R221, R223). A response of APPLYL without a colour, which CORE never gives
(R137), aborts. -/
def constructUnits (init : InitLightness) (k : Nat) : List LedConfig → Dialogue Construction
  | []      => .issue .flush (fun r => .finish (.built r))
  | c :: cs =>
    .issue (.applyl c.origin init.value) (fun r =>
      match r.colour with
      | none   => .finish (.aborted r)
      | some d =>
        .store k (.make init c d)
          (.issue (.setpx (BitVec.ofNat 32 k) d) (fun _ => constructUnits init (k + 1) cs)))

/-- The construction of a strip from its configuration list (R221 to R223): a CONFIG that fails aborts it, with no further
command. -/
def construct (init : InitLightness) (cs : List LedConfig) : Dialogue Construction :=
  if 2 ^ 32 ≤ cs.length then .finish .noCount
  else
    .issue (.config (BitVec.ofNat 32 cs.length)) (fun r =>
      if r.status = .ok then .issue Instr.blank (fun _ => constructUnits init 0 cs) else .finish (.aborted r))

/-! ### Requests -/

/-- What `apply_and_flush` returns: UnknownUnit, which is the host's own and comes with no command (R229), or the response
of SETPXF, unchanged (R227). -/
inductive HostAnswer where
  | unknownUnit
  | returned (response : Response)
deriving DecidableEq, Repr

/-- Steps 3 to 5: the host writes unit `k`, and no other, issues SETPXF, and returns its response; the unit stays as written
whatever that response is (R227, R228). `u` rests on the unit as the request found it: what another thread writes to the SAME
unit in the meantime is overwritten, an order R232 leaves open (log entry 24). -/
def writeAndFlush (k : Nat) (u : LedUnit) : Dialogue HostAnswer :=
  .store k u (.issue (.setpxf (BitVec.ofNat 32 k) u.derived) (fun r => .finish (.returned r)))

/-- Steps 2 to 5 for unit `u`, number `k`: MainBrightness asks APPLYL for the colour, from the authored one; a channel
request needs no command (R225 to R227). A response of APPLYL without a colour, which CORE never gives (R137), is returned. -/
def applyToUnit (k : Nat) (u : LedUnit) : Request → Dialogue HostAnswer
  | .mainBrightness v =>
    .issue (.applyl u.origin v) (fun r =>
      match r.colour with
      | none   => .finish (.returned r)
      | some d => writeAndFlush k { u with lightness := v, derived := d })
  | .redChannel v     => writeAndFlush k (u.afterRequest (.redChannel v))
  | .greenChannel v   => writeAndFlush k (u.afterRequest (.greenChannel v))
  | .blueChannel v    => writeAndFlush k (u.afterRequest (.blueChannel v))

/-- `apply_and_flush(unit_index, request)` (R227), given the units as the call finds them. It runs every request value, one
above max_brightness too: R224 limits what the control surface passes on, and names no refusal (log entry 23). -/
def applyAndFlush (us : List LedUnit) (k : Nat) (q : Request) : Dialogue HostAnswer :=
  match us[k]? with
  | none   => .finish .unknownUnit
  | some u => applyToUnit k u q

end Sys2Proof.Machine
end

