-- ==== Sys2Proof/Safety.lean ====
section
/-!
DEFINITION. The terms claims are stated in: which list of pixels the framebuffer shows, what the observation says of the
port and of the frame under way, and the invariant of every reachable state (10_state.md R34, R45).
-/
namespace Sys2Proof.Machine

/-- The pixels of a strip as a host thinks of them: per slot the colour written last, or none while no CLEAR, SETPX or
SETPXF has written it since the last CONFIG (R45, R187). -/
abbrev Strip := List (Option Rgb)

/-- The 24 bytes of one slot (R45). -/
def slotBytes (hw : Config) : Option Rgb → List Byte
  | none   => List.replicate Config.group Config.symZero
  | some c => encodePixel hw c

/-- The bytes of a whole buffer, or frame: prefix, slots in order, suffix (20_memory.md R62; 42_framebuffer.md R190). -/
def stripBytes (hw : Config) (ps : Strip) : List Byte :=
  List.replicate Config.resetLen Config.symZero ++ ps.flatMap (slotBytes hw) ++
    List.replicate Config.resetLen Config.symZero

/-- The live framebuffer of `s` holds exactly the pixels `ps`, each reset region all ZERO (R45). -/
def State.Shows (s : State) (ps : Strip) : Prop :=
  ps.length = s.pixels ∧ memRead s.fb 0 s.bufLen = stripBytes s.hw ps

/-- What the framebuffer is worth to a host: nothing while CFG_VALID = 0 (R33), else the strip it shows. -/
def State.Framebuffer (s : State) : Option Strip → Prop
  | none    => s.cfgValid = false
  | some ps => s.cfgValid = true ∧ s.Shows ps

/-- What a command does to the strip: the source's `new`, `clear` and `set_pixel` (R181 to R184); a command that fails, and
every other command, does nothing to it (R241). An index beyond the strip changes nothing. -/
def stripAfter (hw : Config) (strip : Option Strip) : Instr → Option Strip
  | .rgb2hsl _  => strip
  | .hsl2rgb _  => strip
  | .applyl _ _ => strip
  | .encch _    => strip
  | .encpx _    => strip
  | .bufsz _    => strip
  | .config n   => if 1 ≤ n.toNat ∧ n.toNat ≤ hw.nMax then some (List.replicate n.toNat none) else strip
  | .clear c    => strip.map (fun ps => ps.map (fun _ => some c))
  | .setpx i c  => strip.map (fun ps => ps.set i.toNat (some c))
  | .setpxf i c => strip.map (fun ps => ps.set i.toNat (some c))
  | .rdbyte _   => strip
  | .flush      => strip

/-- The bytes TRANSPORT has accepted since the last event that was no such acceptance, in the order it accepted them. -/
def frameSoFar : List Event → List Byte
  | .emit b :: es => frameSoFar es ++ [b]
  | _             => []

/-- The phase the command port must be in after the events of an observation: a command is accepted only when none is under
way, every accepted command has one response, bytes are emitted only while one is under way, and reset ends it with none
(R37, R98, R271). `none` if the events break that order. -/
def portPhase : List Event → Option Phase
  | []                   => some .idle
  | .accept _ _ :: es    => if portPhase es = some .idle then some .stream else none
  | .emit _ :: es        => if portPhase es = some .stream then some .stream else none
  | .respond _ _ _ :: es => if portPhase es = some .stream then some .idle else none
  | .reset :: es         => if (portPhase es).isSome then some .idle else none

/-- The next step accepts the command word of `o`, and `u` is the state in which CORE executes it: PHASE is IDLE, and either
the next turn is the port's and its arbitration picks `o`, or no turn is scheduled and `o` has waited longest (R37, R76). -/
def State.Accepts (s : State) (o : Offer) (u : State) : Prop :=
  s.phase = .idle ∧
  ((s.turns = [] ∧ ∃ rest, s.waiting = o :: rest ∧ u = s.accepted o rest) ∨
   (∃ h ts rest, s.turns = .grant h :: ts ∧ takeOffer h s.waiting = some (o, rest) ∧
      u = { s with turns := ts }.accepted o rest))

/-- `s` and `s'` differ at most in framebuffer bytes outside the live buffer, which no command reads and no frame holds
(R36). -/
def State.SameLive (s s' : State) : Prop :=
  s' = { s with fb := s'.fb } ∧ (s.cfgValid = true → ∀ a < s.bufLen, readByte s.fb a = readByte s'.fb a)

/-- A turn in which TRANSPORT accepts the byte on offer, or which is none of TRANSPORT's: a host offers a command, or the
port's arbitration has its turn. A frame goes on through these turns (R37, R75, R196). -/
def Turn.KeepsFrame (t : Turn) : Prop :=
  t = .answer .accept ∨ (∃ h w, t = .offer h w) ∨ ∃ h, t = .grant h

/-- The commands the hosts offer in these turns, oldest first. -/
def offersIn (ts : List Turn) : List Offer :=
  ts.filterMap (fun t => match t with
    | .offer h w => some ⟨h, w⟩
    | .grant _   => none
    | .answer _  => none
    | .reset _   => none)

/-- `k` steps, stopping at the first fault or refusal. -/
def runSteps : Nat → State → Outcome
  | 0, s     => .next s
  | k + 1, s =>
    match step s with
    | .next t    => runSteps k t
    | .fault r   => .fault r
    | .refused r => .refused r

/-- The invariant of every reachable state. -/
structure State.Inv (s : State) : Prop where
  /-- the parameters are ones the spec admits (R7, R8) -/
  hw_valid : s.hw.Valid
  /-- `1 <= CFG_N <= N_MAX` while CFG_VALID = 1 (R34) -/
  cfg_range : s.cfgValid = true → 1 ≤ s.pixels ∧ s.pixels ≤ s.hw.nMax
  /-- the memory is in canonical form -/
  fb_wf : Memory.wf s.fb
  /-- the memory lists no offset FB does not have (R36) -/
  fb_inside : ∀ c ∈ s.fb, c.1 < s.hw.fbSize
  /-- the reset regions are ZERO and each slot is all ZERO or an EncodedPixel (R45) -/
  fb_shows : s.cfgValid = true → ∃ ps, s.Shows ps
  /-- a stream has a framebuffer to read (R186) -/
  stream_configured : s.phase = .stream → s.cfgValid = true
  /-- `0 <= POS <= BUFLEN` while PHASE = STREAM (R38, R45) -/
  stream_pos : s.phase = .stream → s.pos ≤ s.bufLen
  /-- TRANSPORT has accepted exactly the first POS bytes of the buffer (R75, R193) -/
  stream_frame : s.phase = .stream → frameSoFar s.trace = memRead s.fb 0 s.pos
  /-- the port accepts a command exactly when none is under way (R37, R98) -/
  port_phase : portPhase s.trace = some s.phase

/-- A safe outcome: the machine goes on, in a state that keeps the invariant. -/
def Safe (o : Outcome) : Prop := ∃ t, o = .next t ∧ t.Inv

end Sys2Proof.Machine
end

