-- ==== Sys2Proof/Certificates/Slice0/Obligations.lean ====
section
/-!
DEFINITION. The statements for the provers. Each docstring names the rules of spec/ a statement formalises; a clause that is
the model's own choice says so and names its log entry. Every statement about `step` is put in terms of the turns of log
entry 4 and the observation of log entry 3, which are the model's form of R6, R76, R196, R198 and R47.
-/

open Sys2Proof Sys2Proof.Machine

/-! ### Encoding and the command port -/

/-- 30_encoding.md R95, R97, R103: decoding the word of a well-formed command gives the command back. Of these rules the
spec marks as its own decision R95 (D4), R97 (D4, D5), R103 (D29). -/
def Obligations.DecodeEncodeRoundTrip : Prop :=
  ∀ i : Instr, i.wellFormed = true → decode (encode i) = .command i

/-- 30_encoding.md R97: a word stands for one command only, which is well-formed and whose word it is. Of these rules the
spec marks as its own decision R97 (D4, D5). -/
def Obligations.DecodedWordReencodes : Prop :=
  ∀ (w : Word) (i : Instr), decode w = .command i → i.wellFormed = true ∧ encode i = w

/-- 30_encoding.md R93 to R96: the decoder accepts exactly the words that fit a row of the opcode table, with a hue below
360 where the row is HSL2RGB's. Of these rules the spec marks as its own decision R93, R96 (D5), R94 (D14), R95 (D4). -/
def Obligations.DecoderAcceptsTableRows : Prop :=
  ∀ w : Word, (∃ i, decode w = .command i) ↔
    ∃ row ∈ opcodeTable, w &&& row.mask = row.pattern ∧
      (row.mnemonic = "HSL2RGB" → (hslOf (yField w)).h.toNat ≤ 359)

/-- 30_encoding.md R103, 95_test_vectors.md section 2.1: words written out from the encoding, one or more of each family.
Of these rules the spec marks as its own decision R103 (D29). -/
def Obligations.SampleWordsDecode : Prop :=
  decode 0x0112345600000000#64 = .command (.rgb2hsl ⟨0x12, 0x34, 0x56⟩) ∧
  decode 0x0200000000D2A734#64 = .command (.hsl2rgb ⟨210, 167, 52⟩) ∧
  decode 0x03FF000000000080#64 = .command (.applyl ⟨0xFF, 0, 0⟩ 128) ∧
  decode 0x10000000000000A5#64 = .command (.encch 0xA5) ∧
  decode 0x1100FF0000000000#64 = .command (.encpx ⟨0, 0xFF, 0⟩) ∧
  decode 0x12000000FFFFFFFF#64 = .command (.bufsz 4294967295) ∧
  decode 0x2000000000000003#64 = .command (.config 3) ∧
  decode 0x2100000000000000#64 = .command Instr.blank ∧
  decode 0x2200FF0000000001#64 = .command (.setpx 1 ⟨0, 0xFF, 0⟩) ∧
  decode 0x230000FF00000001#64 = .command (.setpxf 1 ⟨0, 0, 0xFF⟩) ∧
  decode 0x2400000000000078#64 = .command (.rdbyte 120) ∧
  decode 0x2500000000000000#64 = .command .flush

/-- 10_state.md R37, 30_encoding.md R97: a step that accepts a word runs the command it decodes to. The acceptance itself,
`u`, moves the command out of the waiting ones and records the event (log entries 3, 9). Of these rules the spec marks as
its own decision R37 (D2, D19), R97 (D4, D5). -/
def Obligations.StepRunsDecodedCommand : Prop :=
  ∀ (s u : State) (o : Offer) (i : Instr), s.Accepts o u → decode o.word = .command i → step s = exec i u

/-- 30_encoding.md R97, 60_exceptions.md R242: a step that accepts a word which decodes to no command answers
IllegalCommand, with no beats, and writes no state. Of these rules the spec marks as its own decision R97 (D4, D5). -/
def Obligations.IllegalWordWritesNoState : Prop :=
  ∀ (s u : State) (o : Offer) (e : Illegal), s.Accepts o u → decode o.word = .illegal e →
    step s = .next (u.respond .illegalCommand [])

/-- 30_encoding.md R96: every opcode outside the table is illegal, whatever the word's other bits are. Of these rules the
spec marks as its own decision R96 (D5). -/
def Obligations.UnassignedOpcodeIsIllegal : Prop :=
  ∀ (s u : State) (o : Offer), s.Accepts o u →
    opField o.word ∉ [0x01#8, 0x02#8, 0x03#8, 0x10#8, 0x11#8, 0x12#8, 0x20#8, 0x21#8, 0x22#8, 0x23#8, 0x24#8, 0x25#8] →
    step s = .next (u.respond .illegalCommand [])

/-- 10_state.md R37: while PHASE = STREAM the port accepts no command; a command offered waits. That a step without a turn
leaves the state as it is, is the model's own (log entry 5). Of these rules the spec marks as its own decision R37 (D2,
D19). -/
def Obligations.StreamAcceptsNoCommand : Prop :=
  ∀ s : State, s.phase = .stream →
    (s.turns = [] → step s = .next s) ∧
    (∀ h ts, s.turns = .grant h :: ts → step s = .next { s with turns := ts }) ∧
    (∀ h w ts, s.turns = .offer h w :: ts →
      step s = .next { s with turns := ts, waiting := s.waiting ++ [⟨h, w⟩] })

/-- 20_memory.md R76: arbitration may pick any host that has a command waiting; it takes that host's oldest one, and leaves
all others in their order. Of these rules the spec marks as its own decision R76 (D25). -/
def Obligations.ArbitrationKeepsIssueOrder : Prop :=
  ∀ (h : Nat) (ws : List Offer),
    ((∃ o ∈ ws, o.host = h) ↔ (takeOffer h ws).isSome = true) ∧
    (∀ o rest, takeOffer h ws = some (o, rest) →
      ∃ pre post, ws = pre ++ o :: post ∧ rest = pre ++ post ∧ o.host = h ∧ ∀ p ∈ pre, p.host ≠ h)

/-- 10_state.md R37, 70_reset_and_hazards.md R278: between resets a waiting command is not lost; only a new offer and an
acceptance change what waits. Of these rules the spec marks as its own decision R37 (D2, D19), R278 (D2). -/
def Obligations.OffersWaitUntilAccepted : Prop :=
  ∀ s t : State, step s = .next t → (∀ g, s.turns.head? ≠ some (.reset g)) →
    t.waiting = s.waiting ∨
    (∃ o : Offer, s.turns.head? = some (.offer o.host o.word) ∧ t.waiting = s.waiting ++ [o]) ∨
    (∃ o u, s.Accepts o u ∧ t.waiting = u.waiting)

/-- 60_exceptions.md R240: the status codes. Of these rules the spec marks as its own decision R240 (D30). -/
def Obligations.StatusCodesOfTable : Prop :=
  Status.ok.code = 0x00#8 ∧ Status.invalidSize.code = 0x01#8 ∧ Status.indexOutOfRange.code = 0x02#8 ∧
  Status.transportError.code = 0x03#8 ∧ Status.illegalCommand.code = 0x04#8 ∧ Status.notConfigured.code = 0x05#8 ∧
  ∀ st : Status, st.code.toNat ≤ 5

/-! ### Colour: CONV and LPIPE -/

/-- 40_colormath.md R122 to R126, R135, 30_encoding.md R100: RGB2HSL completes with OK and one beat, whose value is put
together from the spec's own formulas over the integers, and changes nothing else. Of these rules the spec marks as its own
decision R123 (D10), R125 (D11), R126 (D12), R100 (D6). -/
def Obligations.Rgb2hslFollowsFormulas : Prop :=
  ∀ (s : State) (c : Rgb),
    let r : Int := c.r.toNat
    let g : Int := c.g.toNat
    let b : Int := c.b.toNat
    let mx := max (max r g) b
    let mn := min (min r g) b
    let chr := mx - mn
    let sum := mx + mn
    let l := sum / 2
    let sat :=
      if chr = 0 then 0
      else if l < 128 then (2 * (255 * chr) + sum) / (2 * sum)
      else (2 * (255 * chr) + (510 - sum)) / (2 * (510 - sum))
    let hn :=
      if mx = r then 60 * (g - b) + (if g < b then 360 * chr else 0)
      else if mx = g then 120 * chr + 60 * (b - r)
      else 240 * chr + 60 * (r - g)
    let h := if chr = 0 then 0 else (2 * hn + chr) / (2 * chr) % 360
    ∃ w : Word, exec (.rgb2hsl c) s = .next (s.respond .ok [w]) ∧ (w.toNat : Int) = h * 65536 + sat * 256 + l

/-- 40_colormath.md R127 points 1, 2 and 4: the result is a valid HSL value, S = 0 exactly for a grey, whose hue is then 0,
and L is half the sum of the largest and the smallest channel. Of these rules the spec marks as derived R127. -/
def Obligations.HslResultIsValid : Prop :=
  ∀ c : Rgb,
    (rgbToHsl c).valid = true ∧
    ((rgbToHsl c).s = 0#8 ↔ c.r = c.g ∧ c.g = c.b) ∧
    ((rgbToHsl c).s = 0#8 → (rgbToHsl c).h = 0#9) ∧
    (rgbToHsl c).l.toNat =
      (max (max c.r.toNat c.g.toNat) c.b.toNat + min (min c.r.toNat c.g.toNat) c.b.toNat) / 2

/-- 40_colormath.md R127 point 3: for a colour that is no grey, the branch of R126 of ANY channel that attains the maximum
gives the hue, so the order in which the channels are tested does not change it. Of these rules the spec marks as derived
R127. -/
def Obligations.HueIndependentOfTestOrder : Prop :=
  ∀ c : Rgb, chroma c ≠ 0 →
    let r : Int := c.r.toNat
    let g : Int := c.g.toNat
    let b : Int := c.b.toNat
    let mx := max (max r g) b
    let chr := mx - min (min r g) b
    (mx = r → ((rgbToHsl c).h.toNat : Int) =
      (2 * (60 * (g - b) + if g < b then 360 * chr else 0) + chr) / (2 * chr) % 360) ∧
    (mx = g → ((rgbToHsl c).h.toNat : Int) = (2 * (120 * chr + 60 * (b - r)) + chr) / (2 * chr) % 360) ∧
    (mx = b → ((rgbToHsl c).h.toNat : Int) = (2 * (240 * chr + 60 * (r - g)) + chr) / (2 * chr) % 360)

/-- 40_colormath.md R128, 30_encoding.md R99: HSL2RGB of a valid HSL value at saturation 0 gives the grey of its lightness,
at lightness 0 black and at lightness 255 white, and changes nothing else. Of these rules the spec marks as its own
decision R128 (D13), R99 (D6). -/
def Obligations.Hsl2rgbGreyBlackWhite : Prop :=
  ∀ (s : State) (v : Hsl), v.h.toNat ≤ 359 →
    (v.s = 0#8 → ∃ w : Word, exec (.hsl2rgb v) s = .next (s.respond .ok [w]) ∧
      w.toNat = v.l.toNat * 65536 + v.l.toNat * 256 + v.l.toNat) ∧
    (v.l = 0#8 → exec (.hsl2rgb v) s = .next (s.respond .ok [0x000000#64])) ∧
    (v.l = 255#8 → exec (.hsl2rgb v) s = .next (s.respond .ok [0xFFFFFF#64]))

/-- 40_colormath.md R129 to R132, R136, 30_encoding.md R99: HSL2RGB of every other valid HSL value completes with OK and
one beat, whose value is put together from the spec's own formulas over the integers with no clamping, and changes nothing
else. Of these rules the spec marks as its own decision R129, R130, R131 (D13), R99 (D6), as derived R132. -/
def Obligations.Hsl2rgbFollowsFormulas : Prop :=
  ∀ (s : State) (v : Hsl), v.h.toNat ≤ 359 → v.s ≠ 0#8 → v.l ≠ 0#8 → v.l ≠ 255#8 →
    let h : Int := v.h.toNat
    let sat : Int := v.s.toNat
    let l : Int := v.l.toNat
    let le := 4 * l + 1
    let q := if l < 128 then le * (255 + sat) else 255 * le + 1020 * sat - le * sat
    let p := 510 * le - q
    let tri := fun x : Int =>
      if x < 60 then 60 * p + (q - p) * x
      else if x < 180 then 60 * q
      else if x < 240 then 60 * p + (q - p) * (240 - x)
      else 60 * p
    let channel := fun x : Int => (2 * tri (x % 360) + 61200) / (2 * 61200)
    0 ≤ p ∧ p ≤ q ∧ q ≤ 260100 ∧
    ∃ w : Word, exec (.hsl2rgb v) s = .next (s.respond .ok [w]) ∧
      (w.toNat : Int) = channel (h + 120) * 65536 + channel h * 256 + channel (h + 240)

/-- 30_encoding.md R94: an HSL2RGB word with a hue of 360 or more fails with IllegalCommand and writes no state. Of these
rules the spec marks as its own decision R94 (D14). -/
def Obligations.Hsl2rgbRefusesHue : Prop :=
  ∀ (s u : State) (o : Offer), s.Accepts o u → opField o.word = 0x02#8 → 360 ≤ (hslOf (yField o.word)).h.toNat →
    step s = .next (u.respond .illegalCommand [])

/-- 40_colormath.md R133, R137: APPLYL answers what HSL2RGB answers for the base's hue and saturation and the lightness `(L
* lv) div 255`, and changes nothing else. -/
def Obligations.ApplylScalesLightness : Prop :=
  ∀ (s : State) (c : Rgb) (lv : Byte), ∃ w : Word,
    exec (.applyl c lv) s = .next (s.respond .ok [w]) ∧
    exec (.hsl2rgb ⟨(rgbToHsl c).h, (rgbToHsl c).s, BitVec.ofNat 8 ((rgbToHsl c).l.toNat * lv.toNat / 255)⟩) s =
      .next (s.respond .ok [w])

/-- 40_colormath.md R138: `apply_lightness(c, 0)` is black for every colour. Of these rules the spec marks as derived R138. -/
def Obligations.ApplylZeroIsBlack : Prop :=
  ∀ (s : State) (c : Rgb), exec (.applyl c 0#8) s = .next (s.respond .ok [0#64])

/-- 40_colormath.md R139: `apply_lightness(c, 255)` is the round trip of the colour. Of these rules the spec marks as
derived R139. -/
def Obligations.ApplylFullIsRoundTrip : Prop :=
  ∀ (s : State) (c : Rgb), exec (.applyl c 255#8) s = exec (.hsl2rgb (rgbToHsl c)) s

/-- 40_colormath.md R140, 95_test_vectors.md S1: each channel of the round trip of any colour is within 3 of the colour's.
Of these rules the spec marks as derived R140. -/
def Obligations.RoundTripWithinThree : Prop :=
  ∀ (s : State) (c : Rgb), ∃ d : Rgb, exec (.hsl2rgb (rgbToHsl c)) s = .next (s.respond .ok [rgbBeat d]) ∧
    (d.r.toNat ≤ c.r.toNat + 3 ∧ c.r.toNat ≤ d.r.toNat + 3) ∧
    (d.g.toNat ≤ c.g.toNat + 3 ∧ c.g.toNat ≤ d.g.toNat + 3) ∧
    (d.b.toNat ≤ c.b.toNat + 3 ∧ c.b.toNat ≤ d.b.toNat + 3)

/-- 40_colormath.md R140: every grey and the six fully saturated primaries and secondaries return exactly. Of these rules
the spec marks as derived R140. -/
def Obligations.GreysAndPrimariesRoundTrip : Prop :=
  (∀ v : Byte, hslToRgb (rgbToHsl ⟨v, v, v⟩) = ⟨v, v, v⟩) ∧
  ∀ c ∈ ([⟨255, 0, 0⟩, ⟨0, 255, 0⟩, ⟨0, 0, 255⟩, ⟨255, 255, 0⟩, ⟨0, 255, 255⟩, ⟨255, 0, 255⟩] : List Rgb),
    hslToRgb (rgbToHsl c) = c

/-- 30_encoding.md R100: the beat of an RGB2HSL, passed as the Y field of an HSL2RGB, is the HSL value it holds. Of these
rules the spec marks as its own decision R100 (D6). -/
def Obligations.HslBeatFeedsBack : Prop :=
  ∀ c : Rgb, decode (wordOf 0x02#8 0#24 ((hslBeat (rgbToHsl c)).setWidth 32)) = .command (.hsl2rgb (rgbToHsl c))

/-! ### Symbols: CODEC -/

/-- 41_symbolcodec.md R161, R165, 30_encoding.md R101: ENCCH completes with OK and one beat, whose k-th byte from the top
is the symbol of bit 7 - k, and changes nothing else. Of these rules the spec marks as its own decision R101 (D6). -/
def Obligations.EncchPacksSymbols : Prop :=
  ∀ (s : State) (v : Byte), ∃ w : Word, exec (.encch v) s = .next (s.respond .ok [w]) ∧
    ∀ k < 8, w.extractLsb' (56 - 8 * k) 8 = if v.getLsbD (7 - k) then s.hw.symHigh else s.hw.symLow

/-- 41_symbolcodec.md R163, R166, 30_encoding.md R101: ENCPX completes with OK and the beats of green, red and blue, in
that order, and changes nothing else. Of these rules the spec marks as its own decision R101 (D6). -/
def Obligations.EncpxPacksGreenRedBlue : Prop :=
  ∀ (s : State) (c : Rgb), ∃ g r b : Word, exec (.encpx c) s = .next (s.respond .ok [g, r, b]) ∧
    ∀ k < 8,
      g.extractLsb' (56 - 8 * k) 8 = (if c.g.getLsbD (7 - k) then s.hw.symHigh else s.hw.symLow) ∧
      r.extractLsb' (56 - 8 * k) 8 = (if c.r.getLsbD (7 - k) then s.hw.symHigh else s.hw.symLow) ∧
      b.extractLsb' (56 - 8 * k) 8 = (if c.b.getLsbD (7 - k) then s.hw.symHigh else s.hw.symLow)

/-- 41_symbolcodec.md R168: encode_channel and encode_pixel are injective. Of these rules the spec marks as derived R168. -/
def Obligations.SymbolCodesInjective : Prop :=
  ∀ hw : Config, hw.Valid →
    (∀ v v' : Byte, encodeChannel hw v = encodeChannel hw v' → v = v') ∧
    (∀ c c' : Rgb, encodePixel hw c = encodePixel hw c' → c = c')

/-- 41_symbolcodec.md R169: no output of encode_channel or encode_pixel contains ZERO. Of these rules the spec marks as
derived R169. -/
def Obligations.SymbolsAreNeverZero : Prop :=
  ∀ hw : Config, hw.Valid →
    (∀ v : Byte, 0x00#8 ∉ encodeChannel hw v) ∧ (∀ c : Rgb, 0x00#8 ∉ encodePixel hw c)

/-- 41_symbolcodec.md R164, R167, 30_encoding.md R102: BUFSZ completes for every count, 0 included, with the exact buffer
length, and changes nothing else. Of these rules the spec marks as its own decision R167 (D17), R102 (D6, D17). -/
def Obligations.BufszIsExact : Prop :=
  ∀ (s : State) (n : Count), ∃ w : Word, exec (.bufsz n) s = .next (s.respond .ok [w]) ∧ w.toNat = 24 * (8 + n.toNat)

/-! ### The framebuffer: FBENC -/

/-- 42_framebuffer.md R181: CONFIG with a count of 1 to N_MAX sets CFG_N and CFG_VALID, zeroes the whole new live buffer,
answers OK, and changes no other byte and no other state. Of these rules the spec marks as its own decision R181 (D8, D15). -/
def Obligations.ConfigCreatesZeroBuffer : Prop :=
  ∀ (s : State) (n : Count), 1 ≤ n.toNat → n.toNat ≤ s.hw.nMax →
    ∃ m, exec (.config n) s = .next ({ s with cfgN := n, cfgValid := true, fb := m }.respond .ok []) ∧
      (∀ a < 24 * (8 + n.toNat), readByte m a = 0x00#8) ∧
      (∀ a, 24 * (8 + n.toNat) ≤ a → readByte m a = readByte s.fb a)

/-- 42_framebuffer.md R181, 60_exceptions.md R242: CONFIG with a count of 0 or above N_MAX answers InvalidSize and keeps
the previous configuration and buffer. Of these rules the spec marks as its own decision R181 (D8, D15). -/
def Obligations.ConfigRefusesSize : Prop :=
  ∀ (s : State) (n : Count), n.toNat = 0 ∨ s.hw.nMax < n.toNat →
    exec (.config n) s = .next (s.respond .invalidSize [])

/-- 42_framebuffer.md R182: CLEAR writes the EncodedPixel of its colour into every slot, answers OK, and changes no byte
outside the slots and no other state. -/
def Obligations.ClearWritesEverySlot : Prop :=
  ∀ (s : State) (c : Rgb), s.cfgValid = true → s.pixels ≤ s.hw.nMax →
    ∃ m, exec (.clear c) s = .next ({ s with fb := m }.respond .ok []) ∧
      (∀ i < s.pixels, ∀ j < 24, readByte m (slotOffset i + j) = (encodePixel s.hw c).getD j 0#8) ∧
      (∀ a, a < slotOffset 0 ∨ slotOffset s.pixels ≤ a → readByte m a = readByte s.fb a)

/-- 42_framebuffer.md R183, R189, 20_memory.md R71: SETPX writes the EncodedPixel of its colour into its slot, answers OK,
and changes no byte outside that slot and no other state. Of these rules the spec marks as derived R189. -/
def Obligations.SetpxWritesItsSlot : Prop :=
  ∀ (s : State) (i : Count) (c : Rgb), s.cfgValid = true → s.pixels ≤ s.hw.nMax → i.toNat < s.pixels →
    ∃ m, exec (.setpx i c) s = .next ({ s with fb := m }.respond .ok []) ∧
      (∀ j < 24, readByte m (slotOffset i.toNat + j) = (encodePixel s.hw c).getD j 0#8) ∧
      (∀ a, a < slotOffset i.toNat ∨ slotOffset i.toNat + 24 ≤ a → readByte m a = readByte s.fb a)

/-- 42_framebuffer.md R184: SETPXF writes its slot as SETPX does and starts the stream in the same step; there is no
response yet, and nothing else changes. Of these rules the spec marks as its own decision R184 (D19). -/
def Obligations.SetpxfWritesSlotAndStartsStream : Prop :=
  ∀ (s : State) (i : Count) (c : Rgb), s.cfgValid = true → s.pixels ≤ s.hw.nMax → i.toNat < s.pixels →
    ∃ m, exec (.setpxf i c) s = .next { s with fb := m, phase := .stream, pos := 0 } ∧
      (∀ j < 24, readByte m (slotOffset i.toNat + j) = (encodePixel s.hw c).getD j 0#8) ∧
      (∀ a, a < slotOffset i.toNat ∨ slotOffset i.toNat + 24 ≤ a → readByte m a = readByte s.fb a)

/-- 42_framebuffer.md R185, 30_encoding.md R102: RDBYTE of an offset below BUFLEN answers OK with that byte and writes no
state. Of these rules the spec marks as its own decision R185 (D20), R102 (D6, D17). -/
def Obligations.RdbyteReadsLiveByte : Prop :=
  ∀ (s : State) (a : Count), s.cfgValid = true → s.pixels ≤ s.hw.nMax → a.toNat < 24 * (8 + s.cfgN.toNat) →
    ∃ w : Word, exec (.rdbyte a) s = .next (s.respond .ok [w]) ∧ w.toNat = (readByte s.fb a.toNat).toNat

/-- 42_framebuffer.md R186: FLUSH with a framebuffer starts the stream and writes PHASE and POS only. Of these rules the
spec marks as its own decision R186 (D18). -/
def Obligations.FlushStartsStream : Prop :=
  ∀ s : State, s.cfgValid = true → exec .flush s = .next { s with phase := .stream, pos := 0 }

/-- 60_exceptions.md R242, R243, 10_state.md R33: while CFG_VALID = 0 the five framebuffer commands answer NotConfigured,
whatever their operands are, and write no state. Of these rules the spec marks as its own decision R243 (D21), R33 (D16). -/
def Obligations.UnconfiguredCommandsRefused : Prop :=
  ∀ (s : State) (c : Rgb) (n : Count), s.cfgValid = false →
    exec (.clear c) s = .next (s.respond .notConfigured []) ∧
    exec (.setpx n c) s = .next (s.respond .notConfigured []) ∧
    exec (.setpxf n c) s = .next (s.respond .notConfigured []) ∧
    exec (.rdbyte n) s = .next (s.respond .notConfigured []) ∧
    exec .flush s = .next (s.respond .notConfigured [])

/-- 60_exceptions.md R242, 20_memory.md R81: an index at or above CFG_N and an offset at or above BUFLEN answer
IndexOutOfRange; nothing is written and no frame starts. -/
def Obligations.OutOfRangeRefused : Prop :=
  ∀ (s : State) (c : Rgb) (n : Count), s.cfgValid = true →
    (s.cfgN.toNat ≤ n.toNat →
      exec (.setpx n c) s = .next (s.respond .indexOutOfRange []) ∧
      exec (.setpxf n c) s = .next (s.respond .indexOutOfRange [])) ∧
    (24 * (8 + s.cfgN.toNat) ≤ n.toNat → exec (.rdbyte n) s = .next (s.respond .indexOutOfRange []))

/-- 60_exceptions.md R241: a command whose response is not OK returns no beats and writes no state. (A TransportError is no
response of a command's own step: it comes with TRANSPORT's answer.) -/
def Obligations.FailedCommandWritesNothing : Prop :=
  ∀ (i : Instr) (s t : State) (cl : Nat) (st : Status) (beats : List Word), exec i s = .next t →
    t.trace = .respond cl st beats :: s.trace → st ≠ .ok →
    beats = [] ∧ cl = s.client ∧ t = { s with trace := .respond cl st beats :: s.trace }

/-- 20_memory.md R63: byte j of slot i holds the symbol of the bit the table gives. Of these rules the spec marks as
derived R63. -/
def Obligations.SlotHoldsChannelBits : Prop :=
  ∀ (s t : State) (i : Count) (c : Rgb), s.cfgValid = true → i.toNat < s.pixels → exec (.setpx i c) s = .next t →
    ∀ j < 24, readByte t.fb (96 + 24 * i.toNat + j) =
      if (if j < 8 then c.g.getLsbD (7 - j) else if j < 16 then c.r.getLsbD (15 - j) else c.b.getLsbD (23 - j))
      then s.hw.symHigh else s.hw.symLow

/-- 20_memory.md R73: CONFIG, CLEAR and SETPX with the same operands leave the same state when repeated. The premise is the
memory's canonical form, which every step keeps. Of these rules the spec marks as derived R73. -/
def Obligations.RepeatedWriteChangesNothing : Prop :=
  ∀ (i : Instr) (s t : State), Memory.wf s.fb →
    ((∃ n, i = .config n) ∨ (∃ c, i = .clear c) ∨ (∃ n c, i = .setpx n c)) → exec i s = .next t →
    ∃ st, exec i t = .next (t.respond st [])

/-- 20_memory.md R72: no command but CONFIG writes the prefix or the suffix. Of these rules the spec marks as derived R72. -/
def Obligations.OnlyConfigWritesResetRegions : Prop :=
  ∀ (i : Instr) (s t : State), (∀ n, i ≠ .config n) → exec i s = .next t →
    ∀ a, a < 96 ∨ 96 + 24 * s.cfgN.toNat ≤ a → readByte t.fb a = readByte s.fb a

/-- 40_colormath.md R134, 20_memory.md R61, 10_state.md R33: the pure commands and RDBYTE complete or fail with one
response and change nothing else; the pure ones do not depend on CFG_VALID, CFG_N or the framebuffer. Of these rules the
spec marks as its own decision R61 (D20), R33 (D16). -/
def Obligations.PureCommandsKeepState : Prop :=
  ∀ (i : Instr) (s t : State),
    ((∃ c, i = .rgb2hsl c) ∨ (∃ v, i = .hsl2rgb v) ∨ (∃ c lv, i = .applyl c lv) ∨ (∃ v, i = .encch v) ∨
      (∃ c, i = .encpx c) ∨ (∃ n, i = .bufsz n) ∨ (∃ a, i = .rdbyte a)) → exec i s = .next t →
    ∃ st beats, t = s.respond st beats ∧
      ((∀ a, i ≠ .rdbyte a) → ∀ u : State, u.hw = s.hw → exec i u = .next (u.respond st beats))

/-- 42_framebuffer.md R181 to R184, R187, 10_state.md R45, 20_memory.md R62: on a framebuffer that shows a strip of pixels
(each slot all ZERO or the EncodedPixel of its colour, each reset region ZERO), every command does to the buffer exactly
what `new`, `clear` and `set_pixel` do to the strip. Of these rules the spec marks as its own decision R181 (D8, D15), R184
(D19), R187 (D15), as derived R45. -/
def Obligations.CommandsRefineStrip : Prop :=
  ∀ (i : Instr) (s t : State) (strip : Option Strip), s.Framebuffer strip → exec i s = .next t →
    t.Framebuffer (stripAfter s.hw strip i)

/-! ### The stream -/

/-- 42_framebuffer.md R196: TRANSPORT accepts the byte at POS. Of these rules the spec marks as its own decision R196
(D18). -/
def Obligations.AcceptedByteIsEmitted : Prop :=
  ∀ (s : State) (ts : List Turn), s.phase = .stream → s.pixels ≤ s.hw.nMax → s.pos < 24 * (8 + s.cfgN.toNat) →
    s.turns = .answer .accept :: ts →
    step s = .next { s with turns := ts, pos := s.pos + 1, trace := .emit (readByte s.fb s.pos) :: s.trace }

/-- 42_framebuffer.md R196, R198, R200: a failure of TRANSPORT, at any byte or at the end, ends the frame with
TransportError and its value as the one beat; of the architectural state only PHASE changes. Of these rules the spec marks
as its own decision R196, R198 (D18). -/
def Obligations.TransportFailureChangesOnlyPhase : Prop :=
  ∀ (s : State) (terr : Word) (ts : List Turn), s.phase = .stream → s.turns = .answer (.fail terr) :: ts →
    step s = .next { s with turns := ts, phase := .idle, trace := .respond s.client .transportError [terr] :: s.trace }

/-- 42_framebuffer.md R198: TRANSPORT's completion ends the frame with OK. Of these rules the spec marks as its own
decision R198 (D18). -/
def Obligations.CompletionEndsFrame : Prop :=
  ∀ (s : State) (ts : List Turn), s.phase = .stream → s.pos = 24 * (8 + s.cfgN.toNat) →
    s.turns = .answer .done :: ts →
    step s = .next { s with turns := ts, phase := .idle, trace := .respond s.client .ok [] :: s.trace }

/-- 42_framebuffer.md R199: if TRANSPORT never answers and reset is not asserted, then however long the machine runs the
stream does not end: no response, no byte, no command accepted. -/
def Obligations.SilentTransportHoldsStream : Prop :=
  ∀ (k : Nat) (s : State), s.phase = .stream →
    (∀ t ∈ s.turns, (∃ h w, t = .offer h w) ∨ (∃ h, t = .grant h)) →
    ∃ u, runSteps k s = .next u ∧ u.phase = .stream ∧ u.pos = s.pos ∧ u.fb = s.fb ∧ u.trace = s.trace

/-- 42_framebuffer.md R190, R193, 20_memory.md R75, 10_state.md R37: when TRANSPORT accepts every byte and completes, the
frame is exactly `MemRead(0, BUFLEN)` of the state in which the stream started, byte 0 first, and the response is OK,
whatever commands the hosts offer and however often the port is granted in the meantime, before any byte or before the
completion; those commands wait, in the order in which they were offered, and nothing else changes. Of these rules the spec
marks as its own decision R37 (D2, D19), as derived R190, R193, R75. -/
def Obligations.WholeFrameIsSnapshot : Prop :=
  ∀ (s : State) (during ts : List Turn), s.phase = .stream → s.pos = 0 → s.pixels ≤ s.hw.nMax →
    (∀ t ∈ during, t.KeepsFrame) → during.count (.answer .accept) = s.bufLen →
    s.turns = during ++ .answer .done :: ts →
    runSteps (during.length + 1) s = .next { s with
      turns := ts, phase := .idle, pos := s.bufLen, waiting := s.waiting ++ offersIn during,
      trace := .respond s.client .ok [] :: (((memRead s.fb 0 s.bufLen).map Event.emit).reverse ++ s.trace) }

/-- 42_framebuffer.md R196, R200, 10_state.md R37, 93_implementation_defined.md I8: TRANSPORT may fail after any number k
of accepted bytes; then exactly the first k bytes of the buffer were emitted, the value it gave is the one beat, and the
buffer keeps its contents, whatever commands the hosts offer and however often the port is granted in the meantime; those
commands wait. Of these rules the spec marks as its own decision R196 (D18), R37 (D2, D19). -/
def Obligations.FailedFrameIsPrefix : Prop :=
  ∀ (s : State) (k : Nat) (terr : Word) (during ts : List Turn), s.phase = .stream → s.pos = 0 →
    s.pixels ≤ s.hw.nMax → k ≤ s.bufLen → (∀ t ∈ during, t.KeepsFrame) → during.count (.answer .accept) = k →
    s.turns = during ++ .answer (.fail terr) :: ts →
    runSteps (during.length + 1) s = .next { s with
      turns := ts, phase := .idle, pos := k, waiting := s.waiting ++ offersIn during,
      trace := .respond s.client .transportError [terr] :: (((memRead s.fb 0 k).map Event.emit).reverse ++ s.trace) }

/-- 42_framebuffer.md R192: while PHASE = STREAM no step but a reset writes the framebuffer or the configuration. Of these
rules the spec marks as derived R192. -/
def Obligations.StreamNeverWritesBuffer : Prop :=
  ∀ s t : State, s.phase = .stream → (∀ g, s.turns.head? ≠ some (.reset g)) → step s = .next t →
    t.fb = s.fb ∧ t.cfgN = s.cfgN ∧ t.cfgValid = s.cfgValid

/-! ### Reset, the configuration and the whole machine -/

/-- 10_state.md R46: the reset values the spec gives. (FB is unspecified; what `State.reset` lists is log entry 6.) Of
these rules the spec marks as its own decision R46 (D24). -/
def Obligations.ResetValuesOfTable : Prop :=
  State.reset.cfgValid = false ∧ State.reset.cfgN = 0#32 ∧ State.reset.phase = .idle ∧ State.reset.pos = 0

/-- 70_reset_and_hazards.md R270 to R272, 10_state.md R46: a reset at any time leaves the reset values, the parameters and
no response, and FB may then hold any bytes at all. That waiting commands are dropped, and that the observation records the
reset, are the model's own (log entries 11, 3). Of these rules the spec marks as its own decision R270, R271, R46 (D24). -/
def Obligations.ResetAtAnyTime : Prop :=
  ∀ (s : State) (ts : List Turn),
    (∀ g, s.turns = .reset g :: ts → ∃ m, step s = .next
      { State.reset with hw := s.hw, fb := m, turns := ts, trace := .reset :: s.trace }) ∧
    (∀ m, Memory.wf m → (∀ cell ∈ m, cell.1 < s.hw.fbSize) → ∃ g, step { s with turns := .reset g :: ts } = .next
      { State.reset with hw := s.hw, fb := m, turns := ts, trace := .reset :: s.trace })

/-- 10_state.md R40, 70_reset_and_hazards.md R272: nothing changes the parameters. -/
def Obligations.ParametersNeverChange : Prop :=
  ∀ s t : State, step s = .next t → t.hw = s.hw

/-- 10_state.md R33: CFG_VALID becomes 1 only by a CONFIG that succeeds, and 0 only at reset. Of these rules the spec marks
as its own decision R33 (D16). -/
def Obligations.ConfiguredOnlyByConfig : Prop :=
  ∀ s t : State, step s = .next t →
    (s.cfgValid = false → t.cfgValid = true → ∃ o u n, s.Accepts o u ∧ decode o.word = .command (.config n) ∧
      1 ≤ n.toNat ∧ n.toNat ≤ s.hw.nMax) ∧
    (s.cfgValid = true → t.cfgValid = false → ∃ g, s.turns.head? = some (.reset g))

/-- 10_state.md R46, 00_scope.md R7, R8: the invariant holds after reset, for whatever admitted parameters the chip has.
The parameters, FB and the model's own fields in `State.reset` are the model's choices (log entries 1, 6, 7). Of these
rules the spec marks as its own decision R46 (D24), R7 (D8), R8 (D7). -/
def Obligations.ResetMeetsInvariant : Prop :=
  State.reset.Inv

/-- 10_state.md R34, R38, R45, 42_framebuffer.md R193, 30_encoding.md R98: every step keeps the invariant: CFG_N in range,
the reset regions ZERO and the slots encoded pixels, POS within BUFLEN, the bytes accepted so far exactly the first POS
bytes of the buffer, one response per accepted command, the memory in canonical form. Of these rules the spec marks as its
own decision R38 (D18), R98 (D2, D6), as derived R34, R45, R193. -/
def Obligations.StepKeepsInvariant : Prop :=
  ∀ s t : State, s.Inv → step s = .next t → t.Inv

/-- 30_encoding.md R97, 60_exceptions.md R241, 10_state.md R34, R36: in a state that meets the invariant no step stops:
every command, answer and reset has a next state. That an offset FB does not have would stop the machine, is the model's
own (log entry 10). Of these rules the spec marks as its own decision R97 (D4, D5), R36 (D8), as derived R34. -/
def Obligations.StepNeverStops : Prop :=
  ∀ s : State, s.Inv → ∃ t, step s = .next t

/-- 10_state.md R36: framebuffer bytes outside the live buffer are never read by any command and never emitted. Two states
that differ in them only go on alike, so the contents FB has after reset (log entry 6) are never observed. Of these rules
the spec marks as its own decision R36 (D8). -/
def Obligations.DeadBytesAreUnobservable : Prop :=
  ∀ s s' t : State, s.Inv → s.SameLive s' → step s = .next t → ∃ t', step s' = .next t' ∧ t.SameLive t'

/-- 10_state.md R41, R47: a response is an output and not state: no step reads an earlier event; it only adds new ones. Of
these rules the spec marks as its own decision R41, R47 (D2). -/
def Obligations.ObservationIsNeverRead : Prop :=
  ∀ (s t : State) (tr : List Event), step s = .next t →
    ∃ new, t.trace = new ++ s.trace ∧ step { s with trace := tr } = .next { t with trace := new ++ tr }

/-- 48_host_protocol.md R220, R225, R226 (the reference host, outside the block): MainBrightness after any requests sets
the lightness and gives the colour computed from the authored colour alone; a request to one channel sets that channel of
the derived colour alone and keeps the lightness; the authored colour and the limit never change. -/
def Obligations.MainBrightnessDiscardsOverrides : Prop :=
  ∀ (u : LedUnit) (qs : List Request) (v : Byte),
    let w := qs.foldl LedUnit.afterRequest u
    w.afterRequest (.mainBrightness v) = ⟨u.origin, u.maxBrightness, v, applyLightness u.origin v⟩ ∧
    w.afterRequest (.redChannel v) = ⟨u.origin, u.maxBrightness, w.lightness, ⟨v, w.derived.g, w.derived.b⟩⟩ ∧
    w.afterRequest (.greenChannel v) = ⟨u.origin, u.maxBrightness, w.lightness, ⟨w.derived.r, v, w.derived.b⟩⟩ ∧
    w.afterRequest (.blueChannel v) = ⟨u.origin, u.maxBrightness, w.lightness, ⟨w.derived.r, w.derived.g, v⟩⟩
end

