-- ==== Sys2Proof/Laws/ColorMath.lean ====
section
/-!
SUPPORT. The ranges of the colour functions (40_colormath.md R125 to R127, R132): why every narrowing is exact.
-/
namespace Sys2Proof.Machine

theorem minChannel_le_maxChannel (c : Rgb) : minChannel c ≤ maxChannel c := by
  unfold minChannel maxChannel
  omega

theorem maxChannel_le (c : Rgb) : maxChannel c ≤ 255 := by
  have := c.r.isLt
  have := c.g.isLt
  have := c.b.isLt
  unfold maxChannel
  omega

/-- L is in 0..255 (R123). -/
theorem lightness_le (c : Rgb) : lightness c ≤ 255 := by
  have := maxChannel_le c
  have := minChannel_le_maxChannel c
  unfold lightness channelSum
  omega

/-- A rounded quotient is at most `n` when the quotient is. -/
theorem rnd_le {a b n : Nat} (hb : 0 < b) (h : a ≤ n * b) : rnd a b ≤ n := by
  unfold rnd
  rw [← Nat.lt_succ_iff, Nat.div_lt_iff_lt_mul (by omega)]
  calc 2 * a + b < 2 * (n * b) + 2 * b := by omega
    _ = (n + 1) * (2 * b) := by ring

/-- A rounded quotient is at least `n` when the quotient is. -/
theorem le_rnd {a b n : Nat} (hb : 0 < b) (h : n * b ≤ a) : n ≤ rnd a b := by
  unfold rnd
  rw [Nat.le_div_iff_mul_le (by omega)]
  calc n * (2 * b) = 2 * (n * b) := by ring
    _ ≤ 2 * a + b := by omega

/-- S is in 1..255 when C > 0 (R125). -/
theorem saturation_range (c : Rgb) (h : chroma c ≠ 0) : 1 ≤ saturation c ∧ saturation c ≤ 255 := by
  have hmx := maxChannel_le c
  have hmn := minChannel_le_maxChannel c
  unfold saturation
  rw [if_neg h]
  unfold chroma at h ⊢
  unfold lightness channelSum
  split
  · exact ⟨le_rnd (by omega) (by omega), rnd_le (by omega) (by omega)⟩
  · exact ⟨le_rnd (by omega) (by omega), rnd_le (by omega) (by omega)⟩

theorem saturation_le (c : Rgb) : saturation c ≤ 255 := by
  by_cases h : chroma c = 0
  · simp [saturation, h]
  · exact (saturation_range c h).2

/-- H is in 0..359 (R126). -/
theorem hue_lt (c : Rgb) : hue c < 360 := by
  unfold hue
  split
  · omega
  · exact Nat.mod_lt _ (by omega)

@[simp] theorem rgbToHsl_h (c : Rgb) : (rgbToHsl c).h.toNat = hue c := by
  have := hue_lt c
  simp only [rgbToHsl, BitVec.toNat_ofNat]
  omega

@[simp] theorem rgbToHsl_s (c : Rgb) : (rgbToHsl c).s.toNat = saturation c := by
  have := saturation_le c
  simp only [rgbToHsl, BitVec.toNat_ofNat]
  omega

@[simp] theorem rgbToHsl_l (c : Rgb) : (rgbToHsl c).l.toNat = lightness c := by
  have := lightness_le c
  simp only [rgbToHsl, BitVec.toNat_ofNat]
  omega

/-- `0 <= P <= Q <= 260100` (R132), and no subtraction of R129 goes below 0. -/
theorem magnitudes_range {s l : Nat} (hs : s ≤ 255) (hl : l ≤ 254) :
    magnitudeP s l ≤ magnitudeQ s l ∧ magnitudeQ s l ≤ 260100 ∧ magnitudeQ s l ≤ 510 * lightnessEst l := by
  unfold magnitudeP magnitudeQ
  split
  · next h =>
    have h1 : lightnessEst l * (255 + s) ≤ lightnessEst l * 510 := Nat.mul_le_mul (Nat.le_refl _) (by omega)
    have h2 : lightnessEst l * 510 ≤ 509 * 510 := Nat.mul_le_mul (by unfold lightnessEst; omega) (Nat.le_refl _)
    have h3 : lightnessEst l * 255 ≤ lightnessEst l * (255 + s) := Nat.mul_le_mul (Nat.le_refl _) (by omega)
    omega
  · next h =>
    have he : lightnessEst l ≤ 1017 ∧ 513 ≤ lightnessEst l := by unfold lightnessEst; omega
    have h1 : lightnessEst l * s ≤ 1017 * s := Nat.mul_le_mul he.1 (Nat.le_refl _)
    have h2 : 510 * s ≤ lightnessEst l * s := Nat.mul_le_mul (by omega) (Nat.le_refl _)
    have h3 : (1020 - lightnessEst l) * s ≤ (1020 - lightnessEst l) * 255 := Nat.mul_le_mul (Nat.le_refl _) hs
    rw [Nat.sub_mul] at h3
    omega

/-- Every `tri(x)` lies in `[60 * P, 60 * Q]` (R132). -/
theorem tri_range {p q : Nat} (h : p ≤ q) (x : Nat) : 60 * p ≤ tri p q x ∧ tri p q x ≤ 60 * q := by
  have grow : ∀ y ≤ 60, (q - p) * y ≤ (q - p) * 60 := fun y hy => Nat.mul_le_mul (Nat.le_refl _) hy
  unfold tri
  split_ifs with h1 h2 h3
  · have := grow x (by omega); omega
  · omega
  · have := grow (240 - x) (by omega); omega
  · omega

/-- Every channel of `hsl_to_rgb` is in 0..255 without clamping (R132). -/
theorem channelAt_le {s l : Nat} (hs : s ≤ 255) (hl : l ≤ 254) (x : Nat) : channelAt s l x ≤ 255 := by
  obtain ⟨hpq, hq, -⟩ := magnitudes_range hs hl
  exact rnd_le (by omega) (by have := (tri_range hpq (x % 360)).2; omega)

end Sys2Proof.Machine
end

