-- ==== Sys2Proof/Laws/Decode.lean ====
section
/-!
SUPPORT. The fields of a command word, and what the decoder's `need` can answer.
-/
namespace Sys2Proof

@[simp] theorem opField_wordOf (op : Byte) (x : BitVec 24) (y : Count) : opField (wordOf op x y) = op := by
  apply BitVec.eq_of_getLsbD_eq
  intro i hi
  simp only [opField, wordOf, BitVec.getLsbD_extractLsb', BitVec.getLsbD_append, hi, decide_true, Bool.true_and]
  split_ifs <;> first | omega | (congr 1; omega)

@[simp] theorem xField_wordOf (op : Byte) (x : BitVec 24) (y : Count) : xField (wordOf op x y) = x := by
  apply BitVec.eq_of_getLsbD_eq
  intro i hi
  simp only [xField, wordOf, BitVec.getLsbD_extractLsb', BitVec.getLsbD_append, hi, decide_true, Bool.true_and]
  split_ifs <;> first | omega | (congr 1; omega)

@[simp] theorem yField_wordOf (op : Byte) (x : BitVec 24) (y : Count) : yField (wordOf op x y) = y := by
  apply BitVec.eq_of_getLsbD_eq
  intro i hi
  simp only [yField, wordOf, BitVec.getLsbD_extractLsb', BitVec.getLsbD_append, hi, decide_true, Bool.true_and]
  split_ifs <;> first | omega | (congr 1; omega)

/-- A word is its three fields (30_encoding.md R91). -/
theorem wordOf_fields (w : Word) : wordOf (opField w) (xField w) (yField w) = w := by
  apply BitVec.eq_of_getLsbD_eq
  intro i hi
  simp only [opField, xField, yField, wordOf, BitVec.getLsbD_extractLsb', BitVec.getLsbD_append]
  by_cases h1 : i < 32
  · simp [h1]
  · by_cases h2 : i - 32 < 24
    · simp [h1, h2]; congr 1; omega
    · simp [h1, h2]
      rw [show 56 + (i - 32 - 24) = i by omega]
      simp; omega

@[simp] theorem colorOf_bits (c : Rgb) : colorOf c.bits = c := by
  obtain ⟨r, g, b⟩ := c
  simp only [colorOf, Rgb.bits, Rgb.mk.injEq]
  refine ⟨?_, ?_, ?_⟩ <;> apply BitVec.eq_of_getLsbD_eq <;> intro i hi <;>
    simp only [BitVec.getLsbD_extractLsb', BitVec.getLsbD_append, hi, decide_true, Bool.true_and] <;>
    split_ifs <;> first | omega | (congr 1; omega)

@[simp] theorem bits_colorOf (x : BitVec 24) : (colorOf x).bits = x := by
  apply BitVec.eq_of_getLsbD_eq
  intro i hi
  simp only [colorOf, Rgb.bits, BitVec.getLsbD_extractLsb', BitVec.getLsbD_append]
  by_cases h1 : i < 8
  · simp [h1]
  · by_cases h2 : i - 8 < 8
    · simp [h1, h2]; congr 1; omega
    · simp [h1, h2]
      rw [show 16 + (i - 8 - 8) = i by omega]
      simp; omega

/-- A command comes out of `need` exactly when the reserved bits are 0 (R93). -/
theorem need_eq_command {op : Byte} {ok : Bool} {i j : Instr} : need op ok i = .command j ↔ ok = true ∧ i = j := by
  unfold need
  split <;> simp_all

/-- A command comes out of the hue check exactly when it went in and the hue is below 360 (R94). -/
theorem needHue_eq_command {v : Hsl} {d : Decoded} {j : Instr} :
    needHue v d = .command j ↔ v.valid = true ∧ d = .command j := by
  unfold needHue
  cases d with
  | command i => by_cases h : v.valid = true <;> simp [h]
  | illegal e => simp

/-- Decoding a word put together from its fields. -/
theorem decode_wordOf (op : Byte) (x : BitVec 24) (y : Count) : decode (wordOf op x y) = decodeFields op x y := by
  simp [decode]

/-- Every command the decoder can give, opcode by opcode: the reserved bits are 0, a hue is below 360, and the operands are
the fields of the word (R93 to R97). -/
theorem decodeFields_eq_command {op : Byte} {x : BitVec 24} {y : Count} {i : Instr} :
    decodeFields op x y = .command i ↔
      (op = 0x01#8 ∧ y = 0#32 ∧ .rgb2hsl (colorOf x) = i) ∨
      (op = 0x02#8 ∧ (hslOf y).valid = true ∧ x = 0#24 ∧ aboveHsl y = 0#7 ∧ .hsl2rgb (hslOf y) = i) ∨
      (op = 0x03#8 ∧ aboveByte y = 0#24 ∧ .applyl (colorOf x) (byteOf y) = i) ∨
      (op = 0x10#8 ∧ x = 0#24 ∧ aboveByte y = 0#24 ∧ .encch (byteOf y) = i) ∨
      (op = 0x11#8 ∧ y = 0#32 ∧ .encpx (colorOf x) = i) ∨
      (op = 0x12#8 ∧ x = 0#24 ∧ .bufsz y = i) ∨
      (op = 0x20#8 ∧ x = 0#24 ∧ .config y = i) ∨
      (op = 0x21#8 ∧ y = 0#32 ∧ .clear (colorOf x) = i) ∨
      (op = 0x22#8 ∧ .setpx y (colorOf x) = i) ∨
      (op = 0x23#8 ∧ .setpxf y (colorOf x) = i) ∨
      (op = 0x24#8 ∧ x = 0#24 ∧ .rdbyte y = i) ∨
      (op = 0x25#8 ∧ x = 0#24 ∧ y = 0#32 ∧ .flush = i) := by
  by_cases h1 : op = 0x01#8
  · subst h1; simp [decodeFields, need_eq_command]
  by_cases h2 : op = 0x02#8
  · subst h2; simp [decodeFields, need_eq_command, needHue_eq_command, and_assoc]
  by_cases h3 : op = 0x03#8
  · subst h3; simp [decodeFields, need_eq_command]
  by_cases h4 : op = 0x10#8
  · subst h4; simp [decodeFields, need_eq_command, and_assoc]
  by_cases h5 : op = 0x11#8
  · subst h5; simp [decodeFields, need_eq_command]
  by_cases h6 : op = 0x12#8
  · subst h6; simp [decodeFields, need_eq_command]
  by_cases h7 : op = 0x20#8
  · subst h7; simp [decodeFields, need_eq_command]
  by_cases h8 : op = 0x21#8
  · subst h8; simp [decodeFields, need_eq_command]
  by_cases h9 : op = 0x22#8
  · subst h9; simp [decodeFields, need_eq_command]
  by_cases h10 : op = 0x23#8
  · subst h10; simp [decodeFields, need_eq_command]
  by_cases h11 : op = 0x24#8
  · subst h11; simp [decodeFields, need_eq_command]
  by_cases h12 : op = 0x25#8
  · subst h12; simp [decodeFields, need_eq_command, and_assoc]
  simp only [decodeFields, if_neg, h1, h2, h3, h4, h5, h6, h7, h8, h9, h10, h11, h12, not_false_eq_true, false_and,
    or_self, reduceCtorEq]

end Sys2Proof
end

