-- ==== Sys2Proof/Laws/Controller.lean ====
section
/-!
SUPPORT. What the reference host does when CORE answers it (48_host_protocol.md R221 to R228).
-/
namespace Sys2Proof.Machine

/-! ### The units -/

@[simp] theorem length_unitsOf (init : InitLightness) (cs : List LedConfig) : (unitsOf init cs).length = cs.length := by
  simp [unitsOf]

/-- LedUnit k is made from tuple k (R221). -/
theorem getElem?_unitsOf (init : InitLightness) (cs : List LedConfig) (k : Nat) :
    (unitsOf init cs)[k]? = cs[k]?.map (LedUnit.fromConfig init) := by
  simp [unitsOf]

/-- The authored colour and the limit are immutable (R220). -/
@[simp] theorem afterRequest_origin (u : LedUnit) (q : Request) : (u.afterRequest q).origin = u.origin := by
  cases q <;> rfl

@[simp] theorem afterRequest_maxBrightness (u : LedUnit) (q : Request) :
    (u.afterRequest q).maxBrightness = u.maxBrightness := by
  cases q <;> rfl

@[simp] theorem foldl_afterRequest_origin (u : LedUnit) (qs : List Request) :
    (qs.foldl LedUnit.afterRequest u).origin = u.origin := by
  induction qs generalizing u with
  | nil => rfl
  | cons q qs ih => simp [ih]

/-! ### The responses -/

theorem colorOf_rgbBeat (c : Rgb) : colorOf ((rgbBeat c).extractLsb' 0 24) = c := by
  have h : (rgbBeat c).extractLsb' 0 24 = c.bits := by
    apply BitVec.eq_of_getLsbD_eq
    intro i hi
    simp only [rgbBeat, BitVec.getLsbD_extractLsb', BitVec.getLsbD_setWidth, Nat.zero_add, hi, decide_true,
      Bool.true_and]
    rw [decide_eq_true (by omega : i < 64), Bool.true_and]
  rw [h, colorOf_bits]

/-- The response of APPLYL (40_colormath.md R137). -/
def applylResponse (base : Rgb) (lv : Byte) : Response := ⟨.ok, [rgbBeat (applyLightness base lv)]⟩

/-- It is what CORE answers. -/
theorem exec_applyl (base : Rgb) (lv : Byte) (s : State) :
    exec (.applyl base lv) s = .next (s.respond (applylResponse base lv).status (applylResponse base lv).beats) := rfl

@[simp] theorem colour_applylResponse (base : Rgb) (lv : Byte) :
    (applylResponse base lv).colour = some (applyLightness base lv) := by
  simp only [applylResponse, Response.colour, colorOf_rgbBeat]

/-! ### Construction -/

/-- The acts of the loop: the sequence of R223, with the units numbered from `k`. -/
def unitActs (init : InitLightness) : Nat → List LedConfig → List HostAct
  | _, []      => []
  | k, c :: cs =>
    .issue (.applyl c.origin init.value) :: .store k (.fromConfig init c) ::
      .issue (.setpx (BitVec.ofNat 32 k) (applyLightness c.origin init.value)) :: unitActs init (k + 1) cs

/-- The responses of the loop and the FLUSH; `sets` are those of the SETPXs, which the host does not look at. -/
def unitResponses (init : InitLightness) (sets : Nat → Response) (flush : Response) : List LedConfig → List Response
  | []      => [flush]
  | c :: cs => applylResponse c.origin init.value :: sets cs.length :: unitResponses init sets flush cs

theorem constructUnits_replay (init : InitLightness) (sets : Nat → Response) (flush : Response) (k : Nat)
    (cs : List LedConfig) :
    (constructUnits init k cs).replay (unitResponses init sets flush cs) =
      (unitActs init k cs ++ [.issue .flush], some (.built flush)) := by
  induction cs generalizing k with
  | nil => rfl
  | cons c cs ih =>
    have h := ih (k + 1)
    simp only [constructUnits, unitResponses, Dialogue.replay, Dialogue.acts, Dialogue.resume, colour_applylResponse, h]
    rfl

/-- Answered by CORE, construction does the acts of R223. -/
theorem construct_replay (init : InitLightness) (cs : List LedConfig) (hn : cs.length < 2 ^ 32) (beats : List Word)
    (blank : Response) (sets : Nat → Response) (flush : Response) :
    (construct init cs).replay (⟨.ok, beats⟩ :: blank :: unitResponses init sets flush cs) =
      (.issue (.config (BitVec.ofNat 32 cs.length)) :: .issue Instr.blank :: (unitActs init 0 cs ++ [.issue .flush]),
        some (.built flush)) := by
  have h := constructUnits_replay init sets flush 0 cs
  have hc : ¬ 2 ^ 32 ≤ cs.length := by omega
  simp only [construct, if_neg hc, Dialogue.replay, Dialogue.acts, Dialogue.resume, if_true, h]
  rfl

/-- A new unit is added behind those before it. -/
theorem writeUnit_length (us : List LedUnit) (u : LedUnit) : writeUnit us us.length u = us ++ [u] := by
  simp [writeUnit]

/-- An existing unit is written alone (R230). -/
theorem writeUnit_of_lt {us : List LedUnit} {k : Nat} (h : k < us.length) (u : LedUnit) :
    writeUnit us k u = us.set k u := by
  simp [writeUnit, h]

theorem unitsAfter_unitActs (init : InitLightness) (us : List LedUnit) (cs : List LedConfig) (i : Instr) :
    unitsAfter us (unitActs init us.length cs ++ [.issue i]) = us ++ unitsOf init cs := by
  induction cs generalizing us with
  | nil => simp [unitActs, unitsAfter, unitsOf]
  | cons c cs ih =>
    have h := ih (us ++ [.fromConfig init c])
    rw [List.length_append, List.length_singleton] at h
    simp only [unitActs, List.cons_append, unitsAfter, writeUnit_length, h]
    simp [unitsOf]

/-- The units that construction leaves are those of the configuration list, 1:1 and in the same order (R221). -/
theorem construct_units (init : InitLightness) (cs : List LedConfig) (hn : cs.length < 2 ^ 32) (beats : List Word)
    (blank : Response) (sets : Nat → Response) (flush : Response) :
    unitsAfter [] ((construct init cs).replay (⟨.ok, beats⟩ :: blank :: unitResponses init sets flush cs)).1 =
      unitsOf init cs := by
  rw [construct_replay init cs hn]
  exact unitsAfter_unitActs init [] cs .flush

/-- A CONFIG that fails aborts construction: no further command, whatever other responses there are (R223). -/
theorem construct_aborted (init : InitLightness) (cs : List LedConfig) (hn : cs.length < 2 ^ 32) (r : Response)
    (hr : r.status ≠ .ok) :
    (construct init cs).replay [r] = ([.issue (.config (BitVec.ofNat 32 cs.length))], some (.aborted r)) := by
  have hc : ¬ 2 ^ 32 ≤ cs.length := by omega
  simp only [construct, if_neg hc, Dialogue.replay, Dialogue.acts, Dialogue.resume, if_neg hr]
  rfl

/-! ### Requests -/

/-- An index beyond the units issues no command (R227, R229). -/
theorem applyAndFlush_unknown {us : List LedUnit} {k : Nat} (h : us.length ≤ k) (q : Request) :
    applyAndFlush us k q = .finish .unknownUnit := by
  simp only [applyAndFlush, List.getElem?_eq_none h]

/-- MainBrightness: APPLYL, the unit as R225 says, SETPXF, and its response unchanged, whatever it is (R227, R228). -/
theorem applyAndFlush_mainBrightness {us : List LedUnit} {k : Nat} {u : LedUnit} (h : us[k]? = some u) (v : Byte)
    (r : Response) :
    (applyAndFlush us k (.mainBrightness v)).replay [applylResponse u.origin v, r] =
      ([ .issue (.applyl u.origin v), .store k (u.afterRequest (.mainBrightness v)),
         .issue (.setpxf (BitVec.ofNat 32 k) (u.afterRequest (.mainBrightness v)).derived) ], some (.returned r)) := by
  simp only [applyAndFlush, h, applyToUnit, writeAndFlush, Dialogue.replay, Dialogue.acts, Dialogue.resume,
    colour_applylResponse]
  rfl

/-- A channel request: no APPLYL (R227, R228). -/
theorem applyAndFlush_channel {us : List LedUnit} {k : Nat} {u : LedUnit} (h : us[k]? = some u) {q : Request}
    (hq : ∀ v, q ≠ .mainBrightness v) (r : Response) :
    (applyAndFlush us k q).replay [r] =
      ([ .store k (u.afterRequest q), .issue (.setpxf (BitVec.ofNat 32 k) (u.afterRequest q).derived) ],
        some (.returned r)) := by
  cases q with
  | mainBrightness v => exact absurd rfl (hq v)
  | redChannel v => simp only [applyAndFlush, h]; rfl
  | greenChannel v => simp only [applyAndFlush, h]; rfl
  | blueChannel v => simp only [applyAndFlush, h]; rfl

end Sys2Proof.Machine
end

