-- ==== Sys2Proof/Laws/Memory.lean ====
section
/-!
SUPPORT. The laws of the framebuffer memory: a read after a write, the canonical form, and what a block read gives.
-/
namespace Sys2Proof.Machine

theorem readByte_of_absent {m : List Host.Cell} {a : Nat} (h : ∀ c ∈ m, c.1 ≠ a) : readByte m a = 0#8 := by
  induction m with
  | nil => rfl
  | cons c m ih =>
    have hc := h c (by simp)
    simp only [readByte, hc, if_false]
    exact ih fun d hd => h d (by simp [hd])

theorem readByte_append_left {m m' : List Host.Cell} {a : Nat} (h : ∀ c ∈ m', c.1 ≠ a) :
    readByte (m ++ m') a = readByte m a := by
  induction m with
  | nil => simpa [readByte, Memory.unlisted] using readByte_of_absent h
  | cons c m ih => by_cases hc : c.1 = a <;> simp [readByte, hc, ih]

theorem readByte_append_right {m m' : List Host.Cell} {a : Nat} (h : ∀ c ∈ m, c.1 ≠ a) :
    readByte (m ++ m') a = readByte m' a := by
  induction m with
  | nil => rfl
  | cons c m ih =>
    have hc := h c (by simp)
    simp only [List.cons_append, readByte, hc, if_false]
    exact ih fun d hd => h d (by simp [hd])

theorem readByte_filter {m : List Host.Cell} {a : Nat} {p : Host.Cell → Bool} (h : ∀ c : Host.Cell, c.1 = a → p c = true) :
    readByte (m.filter p) a = readByte m a := by
  induction m with
  | nil => rfl
  | cons c m ih =>
    by_cases hc : c.1 = a
    · simp [h c hc, readByte, hc]
    · by_cases hp : p c = true <;> simp [hp, readByte, hc, ih]

theorem readByte_cellsBelow (m : List Host.Cell) (x a : Nat) :
    readByte (cellsBelow m x) a = if a < x then readByte m a else 0#8 := by
  split
  · next h => exact readByte_filter fun c hc => by simpa [hc] using h
  · next h => exact readByte_of_absent fun c hc hca => h (by simp [cellsBelow] at hc; omega)

theorem readByte_cellsFrom (m : List Host.Cell) (x a : Nat) :
    readByte (cellsFrom m x) a = if x ≤ a then readByte m a else 0#8 := by
  split
  · next h => exact readByte_filter fun c hc => by simpa [hc] using h
  · next h => exact readByte_of_absent fun c hc hca => h (by simp [cellsFrom] at hc; omega)

theorem offset_of_mem_cellsOf {bs : List Byte} {x : Nat} {c : Host.Cell} (h : c ∈ cellsOf x bs) :
    x ≤ c.1 ∧ c.1 < x + bs.length := by
  induction bs generalizing x with
  | nil => simp [cellsOf] at h
  | cons b bs ih =>
    have tail : c ∈ cellsOf (x + 1) bs → x ≤ c.1 ∧ c.1 < x + (b :: bs).length := fun hc => by
      have := ih hc
      simp only [List.length_cons]
      omega
    by_cases hb : b = Memory.unlisted
    · simp only [cellsOf, hb, if_true] at h
      exact tail h
    · simp only [cellsOf, hb, if_false, List.mem_cons] at h
      rcases h with rfl | h
      · simp
      · exact tail h

theorem readByte_cellsOf (bs : List Byte) (x a : Nat) :
    readByte (cellsOf x bs) a = if x ≤ a ∧ a < x + bs.length then bs.getD (a - x) 0#8 else 0#8 := by
  split
  · next h =>
    induction bs generalizing x with
    | nil => simp at h; omega
    | cons b bs ih =>
      by_cases hx : x = a
      · subst hx
        by_cases hb : b = Memory.unlisted
        · simp only [cellsOf, hb, if_true]
          rw [readByte_of_absent fun c hc => by have := offset_of_mem_cellsOf hc; omega]
          simp [Memory.unlisted]
        · simp [cellsOf, hb, readByte]
      · have step := ih (x + 1) (by simp only [List.length_cons] at h; omega)
        have hd : a - x = (a - (x + 1)) + 1 := by omega
        by_cases hb : b = Memory.unlisted
        · simp only [cellsOf, hb, if_true]
          rw [step, hd, List.getD_cons_succ]
        · simp only [cellsOf, hb, if_false, readByte, hx]
          rw [step, hd, List.getD_cons_succ]
  · next h => exact readByte_of_absent fun c hc hca => h (by have := offset_of_mem_cellsOf hc; omega)

/-- A read after a write: the byte written inside the block, the old byte outside it. -/
theorem readByte_memWrite (m : List Host.Cell) (x : Nat) (bs : List Byte) (a : Nat) :
    readByte (memWrite m x bs) a = if x ≤ a ∧ a < x + bs.length then bs.getD (a - x) 0#8 else readByte m a := by
  unfold memWrite
  by_cases hlo : a < x
  · rw [readByte_append_left fun c hc => by simp [cellsFrom] at hc; omega,
      readByte_append_left fun c hc => by have := offset_of_mem_cellsOf hc; omega, readByte_cellsBelow, if_pos hlo,
      if_neg (by omega)]
  · by_cases hhi : a < x + bs.length
    · rw [readByte_append_left fun c hc => by simp [cellsFrom] at hc; omega,
        readByte_append_right fun c hc => by simp [cellsBelow] at hc; omega, readByte_cellsOf, if_pos (by omega),
        if_pos (by omega)]
    · rw [readByte_append_right fun c hc => ?_, readByte_cellsFrom, if_pos (by omega), if_neg (by omega)]
      rcases List.mem_append.1 hc with hc | hc
      · simp [cellsBelow] at hc; omega
      · have := offset_of_mem_cellsOf hc; omega

/-- Every byte outside a written block reads as before. -/
theorem readByte_memWrite_outside {m : List Host.Cell} {x : Nat} {bs : List Byte} {a : Nat}
    (h : a < x ∨ x + bs.length ≤ a) : readByte (memWrite m x bs) a = readByte m a := by
  rw [readByte_memWrite, if_neg (by omega)]

/-- Byte `j` of a written block reads as the byte written there. -/
theorem readByte_memWrite_inside {m : List Host.Cell} {x : Nat} {bs : List Byte} {j : Nat} (h : j < bs.length) :
    readByte (memWrite m x bs) (x + j) = bs.getD j 0#8 := by
  rw [readByte_memWrite, if_pos (by omega)]
  congr 1
  omega

theorem cellsOf_replicate_zero (n x : Nat) : cellsOf x (List.replicate n Memory.unlisted) = [] := by
  induction n generalizing x with
  | zero => rfl
  | succ n ih => simp [List.replicate_succ, cellsOf, ih]

/-- The zero fill is the write of n bytes 0x00 (R14, R181). -/
theorem memZero_eq_memWrite (m : List Host.Cell) (x n : Nat) :
    memZero m x n = memWrite m x (List.replicate n Memory.unlisted) := by
  simp [memZero, memWrite, cellsOf_replicate_zero]

theorem readByte_memZero (m : List Host.Cell) (x n a : Nat) :
    readByte (memZero m x n) a = if x ≤ a ∧ a < x + n then 0#8 else readByte m a := by
  rw [memZero_eq_memWrite, readByte_memWrite]
  simp only [List.length_replicate]
  split
  · next h =>
    rw [List.getD_eq_getElem?_getD, List.getElem?_replicate]
    split <;> rfl
  · rfl

theorem cellsOf_wf (x : Nat) (bs : List Byte) : Memory.wf (cellsOf x bs) := by
  induction bs generalizing x with
  | nil => exact ⟨List.Pairwise.nil, by simp [cellsOf]⟩
  | cons b bs ih =>
    by_cases hb : b = Memory.unlisted
    · simpa only [cellsOf, hb, if_true] using ih (x + 1)
    · simp only [cellsOf, hb, if_false]
      refine ⟨List.pairwise_cons.2 ⟨fun c hc => ?_, (ih (x + 1)).1⟩, fun c hc => ?_⟩
      · have := offset_of_mem_cellsOf hc
        omega
      · rcases List.mem_cons.1 hc with rfl | hc
        · exact hb
        · exact (ih (x + 1)).2 c hc

/-- A write keeps the canonical form. -/
theorem memWrite_wf {m : List Host.Cell} (hm : Memory.wf m) (x : Nat) (bs : List Byte) : Memory.wf (memWrite m x bs) := by
  have ho := cellsOf_wf x bs
  refine ⟨List.pairwise_append.2 ⟨List.pairwise_append.2 ⟨hm.1.filter _, ho.1, ?_⟩, hm.1.filter _, ?_⟩, ?_⟩
  · intro c hc d hd
    have := offset_of_mem_cellsOf hd
    simp [cellsBelow] at hc
    omega
  · intro c hc d hd
    simp [cellsFrom] at hd
    rcases List.mem_append.1 hc with hc | hc
    · simp [cellsBelow] at hc; omega
    · have := offset_of_mem_cellsOf hc; omega
  · intro c hc
    rcases List.mem_append.1 hc with hc | hc
    · rcases List.mem_append.1 hc with hc | hc
      · exact hm.2 c (List.mem_filter.1 hc).1
      · exact ho.2 c hc
    · exact hm.2 c (List.mem_filter.1 hc).1

theorem memZero_wf {m : List Host.Cell} (hm : Memory.wf m) (x n : Nat) : Memory.wf (memZero m x n) := by
  rw [memZero_eq_memWrite]
  exact memWrite_wf hm x _

/-- A write inside the memory lists no offset outside it. -/
theorem memWrite_inside {m : List Host.Cell} {size x : Nat} {bs : List Byte} (hm : ∀ c ∈ m, c.1 < size)
    (h : x + bs.length ≤ size) : ∀ c ∈ memWrite m x bs, c.1 < size := by
  intro c hc
  rcases List.mem_append.1 hc with hc | hc
  · rcases List.mem_append.1 hc with hc | hc
    · exact hm c (List.mem_filter.1 hc).1
    · have := offset_of_mem_cellsOf hc; omega
  · exact hm c (List.mem_filter.1 hc).1

theorem memZero_inside {m : List Host.Cell} {size : Nat} (hm : ∀ c ∈ m, c.1 < size) (x n : Nat) :
    ∀ c ∈ memZero m x n, c.1 < size := by
  intro c hc
  rcases List.mem_append.1 hc with hc | hc <;> exact hm c (List.mem_filter.1 hc).1

theorem memOfCells_wf_inside (size : Nat) (cells : List Host.Cell) :
    Memory.wf (memOfCells size cells) ∧ ∀ c ∈ memOfCells size cells, c.1 < size := by
  have fold : ∀ (l m : List Host.Cell), Memory.wf m → (∀ c ∈ m, c.1 < size) →
      Memory.wf (l.foldl (fun m c => if c.1 < size then memWrite m c.1 [c.2] else m) m) ∧
        ∀ c ∈ l.foldl (fun m c => if c.1 < size then memWrite m c.1 [c.2] else m) m, c.1 < size := by
    intro l
    induction l with
    | nil => intro m hw hi; exact ⟨hw, hi⟩
    | cons d l ih =>
      intro m hw hi
      simp only [List.foldl_cons]
      split
      · next h => exact ih _ (memWrite_wf hw _ _) (memWrite_inside hi (by simpa using h))
      · exact ih _ hw hi
  exact fold cells [] ⟨List.Pairwise.nil, by simp⟩ (by simp)

/-- Two memories in canonical form that read alike at every offset are equal. -/
theorem memory_ext {m m' : List Host.Cell} (hm : Memory.wf m) (hm' : Memory.wf m')
    (h : ∀ a, readByte m a = readByte m' a) : m = m' := by
  induction m generalizing m' with
  | nil =>
    cases m' with
    | nil => rfl
    | cons d m' =>
      exact absurd (h d.1).symm (by simpa [readByte, Memory.unlisted] using hm'.2 d (by simp))
  | cons c m ih =>
    cases m' with
    | nil => exact absurd (h c.1) (by simpa [readByte, Memory.unlisted] using hm.2 c (by simp))
    | cons d m' =>
      have hc := List.pairwise_cons.1 hm.1
      have hd := List.pairwise_cons.1 hm'.1
      have low : ∀ {e : Host.Cell} {l : List Host.Cell}, (∀ f ∈ l, e.1 < f.1) → ∀ a ≤ e.1, readByte l a = 0#8 :=
        fun hl a ha => readByte_of_absent fun f hf => by have := hl f hf; omega
      have hkey : c.1 = d.1 := by
        rcases Nat.lt_trichotomy c.1 d.1 with hlt | heq | hgt
        · have := h c.1
          simp only [readByte, if_true, if_neg (show d.1 ≠ c.1 by omega), low hd.1 c.1 (by omega)] at this
          exact absurd this (hm.2 c (by simp))
        · exact heq
        · have := h d.1
          simp only [readByte, if_true, if_neg (show c.1 ≠ d.1 by omega), low hc.1 d.1 (by omega)] at this
          exact absurd this.symm (hm'.2 d (by simp))
      have hval : c.2 = d.2 := by
        have := h c.1
        simpa only [readByte, if_true, hkey] using this
      have htail : m = m' := by
        refine ih ⟨hc.2, fun e he => hm.2 e (by simp [he])⟩ ⟨hd.2, fun e he => hm'.2 e (by simp [he])⟩ fun a => ?_
        by_cases ha : a ≤ c.1
        · rw [low hc.1 a ha, low hd.1 a (by omega)]
        · have := h a
          simpa only [readByte, if_neg (show c.1 ≠ a by omega), if_neg (show d.1 ≠ a by omega)] using this
      rw [htail, Prod.ext hkey hval]

/-- Writing the same bytes twice is writing them once. -/
theorem memWrite_memWrite {m : List Host.Cell} (hm : Memory.wf m) (x : Nat) (bs : List Byte) :
    memWrite (memWrite m x bs) x bs = memWrite m x bs := by
  apply memory_ext (memWrite_wf (memWrite_wf hm _ _) _ _) (memWrite_wf hm _ _)
  intro a
  simp only [readByte_memWrite]
  split <;> rfl

/-! ### Block reads -/

@[simp] theorem length_memRead (m : List Host.Cell) (a n : Nat) : (memRead m a n).length = n := by
  induction n generalizing a with
  | zero => rfl
  | succ n ih => simp [memRead, ih]

theorem getElem?_memRead (m : List Host.Cell) (a n j : Nat) :
    (memRead m a n)[j]? = if j < n then some (readByte m (a + j)) else none := by
  induction n generalizing a j with
  | zero => simp [memRead]
  | succ n ih =>
    cases j with
    | zero => simp [memRead]
    | succ j =>
      simp only [memRead, List.getElem?_cons_succ, ih, Nat.add_lt_add_iff_right]
      rw [show a + 1 + j = a + (j + 1) by omega]

theorem memRead_add (m : List Host.Cell) (a n k : Nat) : memRead m a (n + k) = memRead m a n ++ memRead m (a + n) k := by
  induction n generalizing a with
  | zero => simp [memRead]
  | succ n ih =>
    rw [show n + 1 + k = (n + k) + 1 by omega]
    simp only [memRead, ih, List.cons_append]
    rw [show a + 1 + n = a + (n + 1) by omega]

theorem memRead_succ (m : List Host.Cell) (a n : Nat) : memRead m a (n + 1) = memRead m a n ++ [readByte m (a + n)] := by
  simpa [memRead] using memRead_add m a n 1

/-- Two block reads agree exactly when every byte does. -/
theorem memRead_eq_iff (m m' : List Host.Cell) (a n : Nat) :
    memRead m a n = memRead m' a n ↔ ∀ j < n, readByte m (a + j) = readByte m' (a + j) := by
  constructor
  · intro h j hj
    have := congrArg (fun l => l[j]?) h
    simpa only [getElem?_memRead, if_pos hj, Option.some.injEq] using this
  · intro h
    apply List.ext_getElem?
    intro j
    simp only [getElem?_memRead]
    split
    · next hj => rw [h j hj]
    · rfl

end Sys2Proof.Machine
end

