-- ==== Sys2Proof/Laws/State.lean ====
section
/-!
SUPPORT. One lemma per field per update of the state, so that no later proof unfolds a record update.
-/
namespace Sys2Proof.Machine

/-! ### `respond` -/

@[simp] theorem State.respond_hw (s : State) (st : Status) (beats : List Word) : (s.respond st beats).hw = s.hw := rfl
@[simp] theorem State.respond_cfgValid (s : State) (st : Status) (beats : List Word) : (s.respond st beats).cfgValid = s.cfgValid := rfl
@[simp] theorem State.respond_cfgN (s : State) (st : Status) (beats : List Word) : (s.respond st beats).cfgN = s.cfgN := rfl
@[simp] theorem State.respond_fb (s : State) (st : Status) (beats : List Word) : (s.respond st beats).fb = s.fb := rfl
@[simp] theorem State.respond_phase (s : State) (st : Status) (beats : List Word) : (s.respond st beats).phase = s.phase := rfl
@[simp] theorem State.respond_pos (s : State) (st : Status) (beats : List Word) : (s.respond st beats).pos = s.pos := rfl
@[simp] theorem State.respond_client (s : State) (st : Status) (beats : List Word) : (s.respond st beats).client = s.client := rfl
@[simp] theorem State.respond_waiting (s : State) (st : Status) (beats : List Word) : (s.respond st beats).waiting = s.waiting := rfl
@[simp] theorem State.respond_turns (s : State) (st : Status) (beats : List Word) : (s.respond st beats).turns = s.turns := rfl
@[simp] theorem State.respond_trace (s : State) (st : Status) (beats : List Word) : (s.respond st beats).trace = .respond s.client st beats :: s.trace := rfl
@[simp] theorem State.respond_pixels (s : State) (st : Status) (beats : List Word) : (s.respond st beats).pixels = s.pixels := rfl
@[simp] theorem State.respond_bufLen (s : State) (st : Status) (beats : List Word) : (s.respond st beats).bufLen = s.bufLen := rfl
@[simp] theorem State.respond_hasOffsets (s : State) (st : Status) (beats : List Word) (a k : Nat) : (s.respond st beats).hasOffsets a k = s.hasOffsets a k := rfl

/-! ### `raise` -/

@[simp] theorem State.raise_hw (s : State) (e : Status) : (s.raise e).hw = s.hw := rfl
@[simp] theorem State.raise_cfgValid (s : State) (e : Status) : (s.raise e).cfgValid = s.cfgValid := rfl
@[simp] theorem State.raise_cfgN (s : State) (e : Status) : (s.raise e).cfgN = s.cfgN := rfl
@[simp] theorem State.raise_fb (s : State) (e : Status) : (s.raise e).fb = s.fb := rfl
@[simp] theorem State.raise_phase (s : State) (e : Status) : (s.raise e).phase = s.phase := rfl
@[simp] theorem State.raise_pos (s : State) (e : Status) : (s.raise e).pos = s.pos := rfl
@[simp] theorem State.raise_client (s : State) (e : Status) : (s.raise e).client = s.client := rfl
@[simp] theorem State.raise_waiting (s : State) (e : Status) : (s.raise e).waiting = s.waiting := rfl
@[simp] theorem State.raise_turns (s : State) (e : Status) : (s.raise e).turns = s.turns := rfl
@[simp] theorem State.raise_trace (s : State) (e : Status) : (s.raise e).trace = .respond s.client e [] :: s.trace := rfl
@[simp] theorem State.raise_pixels (s : State) (e : Status) : (s.raise e).pixels = s.pixels := rfl
@[simp] theorem State.raise_bufLen (s : State) (e : Status) : (s.raise e).bufLen = s.bufLen := rfl
@[simp] theorem State.raise_hasOffsets (s : State) (e : Status) (a k : Nat) : (s.raise e).hasOffsets a k = s.hasOffsets a k := rfl

/-! ### `startStream` -/

@[simp] theorem State.startStream_hw (s : State) : s.startStream.hw = s.hw := rfl
@[simp] theorem State.startStream_cfgValid (s : State) : s.startStream.cfgValid = s.cfgValid := rfl
@[simp] theorem State.startStream_cfgN (s : State) : s.startStream.cfgN = s.cfgN := rfl
@[simp] theorem State.startStream_fb (s : State) : s.startStream.fb = s.fb := rfl
@[simp] theorem State.startStream_phase (s : State) : s.startStream.phase = .stream := rfl
@[simp] theorem State.startStream_pos (s : State) : s.startStream.pos = 0 := rfl
@[simp] theorem State.startStream_client (s : State) : s.startStream.client = s.client := rfl
@[simp] theorem State.startStream_waiting (s : State) : s.startStream.waiting = s.waiting := rfl
@[simp] theorem State.startStream_turns (s : State) : s.startStream.turns = s.turns := rfl
@[simp] theorem State.startStream_trace (s : State) : s.startStream.trace = s.trace := rfl
@[simp] theorem State.startStream_pixels (s : State) : s.startStream.pixels = s.pixels := rfl
@[simp] theorem State.startStream_bufLen (s : State) : s.startStream.bufLen = s.bufLen := rfl
@[simp] theorem State.startStream_hasOffsets (s : State) (a k : Nat) : s.startStream.hasOffsets a k = s.hasOffsets a k := rfl

/-! ### `endStream` -/

@[simp] theorem State.endStream_hw (s : State) (st : Status) (beats : List Word) : (s.endStream st beats).hw = s.hw := rfl
@[simp] theorem State.endStream_cfgValid (s : State) (st : Status) (beats : List Word) : (s.endStream st beats).cfgValid = s.cfgValid := rfl
@[simp] theorem State.endStream_cfgN (s : State) (st : Status) (beats : List Word) : (s.endStream st beats).cfgN = s.cfgN := rfl
@[simp] theorem State.endStream_fb (s : State) (st : Status) (beats : List Word) : (s.endStream st beats).fb = s.fb := rfl
@[simp] theorem State.endStream_phase (s : State) (st : Status) (beats : List Word) : (s.endStream st beats).phase = .idle := rfl
@[simp] theorem State.endStream_pos (s : State) (st : Status) (beats : List Word) : (s.endStream st beats).pos = s.pos := rfl
@[simp] theorem State.endStream_client (s : State) (st : Status) (beats : List Word) : (s.endStream st beats).client = s.client := rfl
@[simp] theorem State.endStream_waiting (s : State) (st : Status) (beats : List Word) : (s.endStream st beats).waiting = s.waiting := rfl
@[simp] theorem State.endStream_turns (s : State) (st : Status) (beats : List Word) : (s.endStream st beats).turns = s.turns := rfl
@[simp] theorem State.endStream_trace (s : State) (st : Status) (beats : List Word) : (s.endStream st beats).trace = .respond s.client st beats :: s.trace := rfl
@[simp] theorem State.endStream_pixels (s : State) (st : Status) (beats : List Word) : (s.endStream st beats).pixels = s.pixels := rfl
@[simp] theorem State.endStream_bufLen (s : State) (st : Status) (beats : List Word) : (s.endStream st beats).bufLen = s.bufLen := rfl
@[simp] theorem State.endStream_hasOffsets (s : State) (st : Status) (beats : List Word) (a k : Nat) : (s.endStream st beats).hasOffsets a k = s.hasOffsets a k := rfl

/-! ### `emitted` -/

@[simp] theorem State.emitted_hw (s : State) (b : Byte) : (s.emitted b).hw = s.hw := rfl
@[simp] theorem State.emitted_cfgValid (s : State) (b : Byte) : (s.emitted b).cfgValid = s.cfgValid := rfl
@[simp] theorem State.emitted_cfgN (s : State) (b : Byte) : (s.emitted b).cfgN = s.cfgN := rfl
@[simp] theorem State.emitted_fb (s : State) (b : Byte) : (s.emitted b).fb = s.fb := rfl
@[simp] theorem State.emitted_phase (s : State) (b : Byte) : (s.emitted b).phase = s.phase := rfl
@[simp] theorem State.emitted_pos (s : State) (b : Byte) : (s.emitted b).pos = s.pos + 1 := rfl
@[simp] theorem State.emitted_client (s : State) (b : Byte) : (s.emitted b).client = s.client := rfl
@[simp] theorem State.emitted_waiting (s : State) (b : Byte) : (s.emitted b).waiting = s.waiting := rfl
@[simp] theorem State.emitted_turns (s : State) (b : Byte) : (s.emitted b).turns = s.turns := rfl
@[simp] theorem State.emitted_trace (s : State) (b : Byte) : (s.emitted b).trace = .emit b :: s.trace := rfl
@[simp] theorem State.emitted_pixels (s : State) (b : Byte) : (s.emitted b).pixels = s.pixels := rfl
@[simp] theorem State.emitted_bufLen (s : State) (b : Byte) : (s.emitted b).bufLen = s.bufLen := rfl
@[simp] theorem State.emitted_hasOffsets (s : State) (b : Byte) (a k : Nat) : (s.emitted b).hasOffsets a k = s.hasOffsets a k := rfl

/-! ### `offered` -/

@[simp] theorem State.offered_hw (s : State) (o : Offer) : (s.offered o).hw = s.hw := rfl
@[simp] theorem State.offered_cfgValid (s : State) (o : Offer) : (s.offered o).cfgValid = s.cfgValid := rfl
@[simp] theorem State.offered_cfgN (s : State) (o : Offer) : (s.offered o).cfgN = s.cfgN := rfl
@[simp] theorem State.offered_fb (s : State) (o : Offer) : (s.offered o).fb = s.fb := rfl
@[simp] theorem State.offered_phase (s : State) (o : Offer) : (s.offered o).phase = s.phase := rfl
@[simp] theorem State.offered_pos (s : State) (o : Offer) : (s.offered o).pos = s.pos := rfl
@[simp] theorem State.offered_client (s : State) (o : Offer) : (s.offered o).client = s.client := rfl
@[simp] theorem State.offered_waiting (s : State) (o : Offer) : (s.offered o).waiting = s.waiting ++ [o] := rfl
@[simp] theorem State.offered_turns (s : State) (o : Offer) : (s.offered o).turns = s.turns := rfl
@[simp] theorem State.offered_trace (s : State) (o : Offer) : (s.offered o).trace = s.trace := rfl
@[simp] theorem State.offered_pixels (s : State) (o : Offer) : (s.offered o).pixels = s.pixels := rfl
@[simp] theorem State.offered_bufLen (s : State) (o : Offer) : (s.offered o).bufLen = s.bufLen := rfl
@[simp] theorem State.offered_hasOffsets (s : State) (o : Offer) (a k : Nat) : (s.offered o).hasOffsets a k = s.hasOffsets a k := rfl

/-! ### `accepted` -/

@[simp] theorem State.accepted_hw (s : State) (o : Offer) (rest : List Offer) : (s.accepted o rest).hw = s.hw := rfl
@[simp] theorem State.accepted_cfgValid (s : State) (o : Offer) (rest : List Offer) : (s.accepted o rest).cfgValid = s.cfgValid := rfl
@[simp] theorem State.accepted_cfgN (s : State) (o : Offer) (rest : List Offer) : (s.accepted o rest).cfgN = s.cfgN := rfl
@[simp] theorem State.accepted_fb (s : State) (o : Offer) (rest : List Offer) : (s.accepted o rest).fb = s.fb := rfl
@[simp] theorem State.accepted_phase (s : State) (o : Offer) (rest : List Offer) : (s.accepted o rest).phase = s.phase := rfl
@[simp] theorem State.accepted_pos (s : State) (o : Offer) (rest : List Offer) : (s.accepted o rest).pos = s.pos := rfl
@[simp] theorem State.accepted_client (s : State) (o : Offer) (rest : List Offer) : (s.accepted o rest).client = o.host := rfl
@[simp] theorem State.accepted_waiting (s : State) (o : Offer) (rest : List Offer) : (s.accepted o rest).waiting = rest := rfl
@[simp] theorem State.accepted_turns (s : State) (o : Offer) (rest : List Offer) : (s.accepted o rest).turns = s.turns := rfl
@[simp] theorem State.accepted_trace (s : State) (o : Offer) (rest : List Offer) : (s.accepted o rest).trace = .accept o.host o.word :: s.trace := rfl
@[simp] theorem State.accepted_pixels (s : State) (o : Offer) (rest : List Offer) : (s.accepted o rest).pixels = s.pixels := rfl
@[simp] theorem State.accepted_bufLen (s : State) (o : Offer) (rest : List Offer) : (s.accepted o rest).bufLen = s.bufLen := rfl
@[simp] theorem State.accepted_hasOffsets (s : State) (o : Offer) (rest : List Offer) (a k : Nat) : (s.accepted o rest).hasOffsets a k = s.hasOffsets a k := rfl

/-! ### `configured` -/

@[simp] theorem State.configured_hw (s : State) (n : Count) : (s.configured n).hw = s.hw := rfl
@[simp] theorem State.configured_cfgValid (s : State) (n : Count) : (s.configured n).cfgValid = true := rfl
@[simp] theorem State.configured_cfgN (s : State) (n : Count) : (s.configured n).cfgN = n := rfl
@[simp] theorem State.configured_fb (s : State) (n : Count) : (s.configured n).fb = memZero s.fb 0 (bufferSize n.toNat) := rfl
@[simp] theorem State.configured_phase (s : State) (n : Count) : (s.configured n).phase = s.phase := rfl
@[simp] theorem State.configured_pos (s : State) (n : Count) : (s.configured n).pos = s.pos := rfl
@[simp] theorem State.configured_client (s : State) (n : Count) : (s.configured n).client = s.client := rfl
@[simp] theorem State.configured_waiting (s : State) (n : Count) : (s.configured n).waiting = s.waiting := rfl
@[simp] theorem State.configured_turns (s : State) (n : Count) : (s.configured n).turns = s.turns := rfl
@[simp] theorem State.configured_trace (s : State) (n : Count) : (s.configured n).trace = s.trace := rfl
@[simp] theorem State.configured_pixels (s : State) (n : Count) : (s.configured n).pixels = n.toNat := rfl
@[simp] theorem State.configured_bufLen (s : State) (n : Count) : (s.configured n).bufLen = bufferSize n.toNat := rfl
@[simp] theorem State.configured_hasOffsets (s : State) (n : Count) (a k : Nat) : (s.configured n).hasOffsets a k = s.hasOffsets a k := rfl

/-! ### `doReset` -/

@[simp] theorem State.doReset_hw (s : State) (g : List Host.Cell) : (s.doReset g).hw = s.hw := rfl
@[simp] theorem State.doReset_cfgValid (s : State) (g : List Host.Cell) : (s.doReset g).cfgValid = false := rfl
@[simp] theorem State.doReset_cfgN (s : State) (g : List Host.Cell) : (s.doReset g).cfgN = 0#32 := rfl
@[simp] theorem State.doReset_fb (s : State) (g : List Host.Cell) : (s.doReset g).fb = memOfCells s.hw.fbSize g := rfl
@[simp] theorem State.doReset_phase (s : State) (g : List Host.Cell) : (s.doReset g).phase = .idle := rfl
@[simp] theorem State.doReset_pos (s : State) (g : List Host.Cell) : (s.doReset g).pos = 0 := rfl
@[simp] theorem State.doReset_client (s : State) (g : List Host.Cell) : (s.doReset g).client = 0 := rfl
@[simp] theorem State.doReset_waiting (s : State) (g : List Host.Cell) : (s.doReset g).waiting = [] := rfl
@[simp] theorem State.doReset_turns (s : State) (g : List Host.Cell) : (s.doReset g).turns = s.turns := rfl
@[simp] theorem State.doReset_trace (s : State) (g : List Host.Cell) : (s.doReset g).trace = .reset :: s.trace := rfl
@[simp] theorem State.doReset_pixels (s : State) (g : List Host.Cell) : (s.doReset g).pixels = 0 := rfl
@[simp] theorem State.doReset_bufLen (s : State) (g : List Host.Cell) : (s.doReset g).bufLen = bufferSize 0 := rfl
@[simp] theorem State.doReset_hasOffsets (s : State) (g : List Host.Cell) (a k : Nat) : (s.doReset g).hasOffsets a k = s.hasOffsets a k := rfl

/-! ### `withNextCommand` -/

@[simp] theorem State.withNextCommand_hw (s : State) (w : Word) : (s.withNextCommand w).hw = s.hw := rfl
@[simp] theorem State.withNextCommand_cfgValid (s : State) (w : Word) : (s.withNextCommand w).cfgValid = s.cfgValid := rfl
@[simp] theorem State.withNextCommand_cfgN (s : State) (w : Word) : (s.withNextCommand w).cfgN = s.cfgN := rfl
@[simp] theorem State.withNextCommand_fb (s : State) (w : Word) : (s.withNextCommand w).fb = s.fb := rfl
@[simp] theorem State.withNextCommand_phase (s : State) (w : Word) : (s.withNextCommand w).phase = .idle := rfl
@[simp] theorem State.withNextCommand_pos (s : State) (w : Word) : (s.withNextCommand w).pos = s.pos := rfl
@[simp] theorem State.withNextCommand_client (s : State) (w : Word) : (s.withNextCommand w).client = s.client := rfl
@[simp] theorem State.withNextCommand_waiting (s : State) (w : Word) : (s.withNextCommand w).waiting = ⟨0, w⟩ :: s.waiting := rfl
@[simp] theorem State.withNextCommand_turns (s : State) (w : Word) : (s.withNextCommand w).turns = .grant 0 :: s.turns := rfl
@[simp] theorem State.withNextCommand_trace (s : State) (w : Word) : (s.withNextCommand w).trace = s.trace := rfl
@[simp] theorem State.withNextCommand_pixels (s : State) (w : Word) : (s.withNextCommand w).pixels = s.pixels := rfl
@[simp] theorem State.withNextCommand_bufLen (s : State) (w : Word) : (s.withNextCommand w).bufLen = s.bufLen := rfl
@[simp] theorem State.withNextCommand_hasOffsets (s : State) (w : Word) (a k : Nat) : (s.withNextCommand w).hasOffsets a k = s.hasOffsets a k := rfl

/-! ### A state written out, as a record update leaves it -/

section
variable (hw : Config) (v : Bool) (n : Count) (m : List Host.Cell) (ph : Phase) (p c : Nat) (ws : List Offer)
  (ts : List Turn) (tr : List Event)

@[simp] theorem State.mk_pixels : (State.mk hw v n m ph p c ws ts tr).pixels = n.toNat := rfl
@[simp] theorem State.mk_bufLen : (State.mk hw v n m ph p c ws ts tr).bufLen = bufferSize n.toNat := rfl
@[simp] theorem State.mk_hasOffsets (a k : Nat) :
    (State.mk hw v n m ph p c ws ts tr).hasOffsets a k = decide (a + k ≤ hw.fbSize) := rfl

end

end Sys2Proof.Machine
end

