-- ==== Sys2Proof/Laws/Ops.lean ====
section
/-!
SUPPORT. One lemma per shared operation that says all it can answer, the conditions of the status checks, and one inversion
lemma each for a command and for a turn.
-/
namespace Sys2Proof.Machine

/-! ### The status checks -/

theorem configStatus_ok_iff {s : State} {n : Count} :
    s.configStatus n = .ok ↔ 1 ≤ n.toNat ∧ n.toNat ≤ s.hw.nMax := by
  unfold State.configStatus
  split <;> simp <;> omega

theorem bufferStatus_ok_iff {s : State} : s.bufferStatus = .ok ↔ s.cfgValid = true := by
  unfold State.bufferStatus
  split <;> simp_all

theorem pixelStatus_ok_iff {s : State} {i : Count} :
    s.pixelStatus i = .ok ↔ s.cfgValid = true ∧ i.toNat < s.pixels := by
  unfold State.pixelStatus
  split
  · split <;> simp_all
  · simp_all

theorem offsetStatus_ok_iff {s : State} {a : Count} :
    s.offsetStatus a = .ok ↔ s.cfgValid = true ∧ a.toNat < s.bufLen := by
  unfold State.offsetStatus
  split
  · split <;> simp_all
  · simp_all

theorem hueStatus_ok_iff {h : BitVec 9} : hueStatus h = .ok ↔ h.toNat ≤ 359 := by
  unfold hueStatus
  split <;> simp_all

/-! ### The shared operations -/

/-- A command's checks pass and it goes on, or it ends with the status they gave. -/
theorem guarded_eq_next {s t : State} {st : Status} {k : Outcome} :
    s.guarded st k = .next t ↔ (st = .ok ∧ k = .next t) ∨ (st ≠ .ok ∧ t = s.raise st) := by
  unfold State.guarded
  split
  · simp_all
  · simp_all [eq_comm]

theorem guarded_of_ok {s : State} {st : Status} {k : Outcome} (h : st = .ok) : s.guarded st k = k := by
  simp [State.guarded, h]

theorem guarded_of_ne {s : State} {st : Status} {k : Outcome} (h : st ≠ .ok) : s.guarded st k = .next (s.raise st) := by
  simp [State.guarded, h]

theorem hasOffsets_iff {s : State} {a n : Nat} : s.hasOffsets a n = true ↔ a + n ≤ s.hw.fbSize := by
  simp [State.hasOffsets]

theorem readFB_eq_next {s t : State} {a : Nat} {k : Byte → Outcome} :
    s.readFB a k = .next t ↔ s.hasOffsets a 1 = true ∧ k (readByte s.fb a) = .next t := by
  unfold State.readFB
  split <;> simp_all

theorem writeFB_eq_next {s t : State} {a : Nat} {bs : List Byte} {k : State → Outcome} :
    s.writeFB a bs k = .next t ↔
      s.hasOffsets a bs.length = true ∧ k { s with fb := memWrite s.fb a bs } = .next t := by
  unfold State.writeFB
  split <;> simp_all

@[simp] theorem length_encodeChannel (hw : Config) (v : Byte) : (encodeChannel hw v).length = 8 := rfl

@[simp] theorem length_encodePixel (hw : Config) (c : Rgb) : (encodePixel hw c).length = 24 := rfl

@[simp] theorem length_clearBytes (hw : Config) (n : Nat) (c : Rgb) : (clearBytes hw n c).length = 24 * n := by
  induction n with
  | zero => rfl
  | succ n ih =>
    simp only [clearBytes, List.replicate_succ, List.flatten_cons, List.length_append, length_encodePixel] at ih ⊢
    omega

/-- The bytes of BUFLEN for a count. -/
theorem bufferSize_eq (n : Nat) : bufferSize n = 192 + 24 * n := by
  simp only [bufferSize, Config.group]
  omega

theorem fbSize_eq (hw : Config) : hw.fbSize = 192 + 24 * hw.nMax := by
  simp only [Config.fbSize, Config.group]
  omega

theorem slotOffset_eq (i : Nat) : slotOffset i = 96 + 24 * i := rfl

/-- FB has every byte of a live buffer whose count is in range, and of its slots. -/
theorem hasOffsets_of_le {s : State} {a n : Nat} (hr : s.pixels ≤ s.hw.nMax) (h : a + n ≤ s.bufLen) :
    s.hasOffsets a n = true := by
  rw [hasOffsets_iff, fbSize_eq]
  rw [State.bufLen, bufferSize_eq] at h
  omega

theorem hasOffsets_slot {s : State} {i : Nat} (hr : s.pixels ≤ s.hw.nMax) (h : i < s.pixels) :
    s.hasOffsets (slotOffset i) 24 = true := by
  apply hasOffsets_of_le hr
  rw [State.bufLen, bufferSize_eq, slotOffset_eq]
  omega

/-! ### What a command can do -/

/-- Every state a command can lead to. -/
theorem exec_cases {i : Instr} {s t : State} (h : exec i s = .next t) :
    (∃ st beats, t = s.respond st beats) ∨
    (∃ n, i = .config n ∧ 1 ≤ n.toNat ∧ n.toNat ≤ s.hw.nMax ∧ t = (s.configured n).respond .ok []) ∨
    (∃ c, i = .clear c ∧ s.cfgValid = true ∧ s.hasOffsets (slotOffset 0) (24 * s.pixels) = true ∧
      t = { s with fb := memWrite s.fb (slotOffset 0) (clearBytes s.hw s.pixels c) }.respond .ok []) ∨
    (∃ n c, i = .setpx n c ∧ s.cfgValid = true ∧ n.toNat < s.pixels ∧ s.hasOffsets (slotOffset n.toNat) 24 = true ∧
      t = { s with fb := memWrite s.fb (slotOffset n.toNat) (encodePixel s.hw c) }.respond .ok []) ∨
    (∃ n c, i = .setpxf n c ∧ s.cfgValid = true ∧ n.toNat < s.pixels ∧ s.hasOffsets (slotOffset n.toNat) 24 = true ∧
      t = { s with fb := memWrite s.fb (slotOffset n.toNat) (encodePixel s.hw c) }.startStream) ∨
    (i = .flush ∧ s.cfgValid = true ∧ t = s.startStream) := by
  cases i with
  | rgb2hsl c => simp only [exec, execRgb2hsl, Host.Outcome.next.injEq] at h; exact .inl ⟨_, _, h.symm⟩
  | hsl2rgb v =>
    rcases guarded_eq_next.1 h with ⟨-, h⟩ | ⟨-, rfl⟩
    · simp only [Host.Outcome.next.injEq] at h; exact .inl ⟨_, _, h.symm⟩
    · exact .inl ⟨_, _, rfl⟩
  | applyl base lv => simp only [exec, execApplyl, Host.Outcome.next.injEq] at h; exact .inl ⟨_, _, h.symm⟩
  | encch v => simp only [exec, execEncch, Host.Outcome.next.injEq] at h; exact .inl ⟨_, _, h.symm⟩
  | encpx c => simp only [exec, execEncpx, Host.Outcome.next.injEq] at h; exact .inl ⟨_, _, h.symm⟩
  | bufsz n => simp only [exec, execBufsz, Host.Outcome.next.injEq] at h; exact .inl ⟨_, _, h.symm⟩
  | config n =>
    simp only [exec, execConfig, Host.Outcome.next.injEq] at h
    split at h
    · next hn =>
      obtain ⟨h1, h2⟩ := configStatus_ok_iff.1 hn
      exact .inr (.inl ⟨n, rfl, h1, h2, h.symm⟩)
    · exact .inl ⟨_, _, h.symm⟩
  | clear c =>
    rcases guarded_eq_next.1 h with ⟨hs, h⟩ | ⟨-, rfl⟩
    · obtain ⟨ho, h⟩ := writeFB_eq_next.1 h
      simp only [Host.Outcome.next.injEq] at h
      rw [length_clearBytes] at ho
      exact .inr (.inr (.inl ⟨c, rfl, bufferStatus_ok_iff.1 hs, ho, h.symm⟩))
    · exact .inl ⟨_, _, rfl⟩
  | setpx n c =>
    rcases guarded_eq_next.1 h with ⟨hs, h⟩ | ⟨-, rfl⟩
    · obtain ⟨ho, h⟩ := writeFB_eq_next.1 h
      obtain ⟨hv, hn⟩ := pixelStatus_ok_iff.1 hs
      simp only [Host.Outcome.next.injEq] at h
      exact .inr (.inr (.inr (.inl ⟨n, c, rfl, hv, hn, ho, h.symm⟩)))
    · exact .inl ⟨_, _, rfl⟩
  | setpxf n c =>
    rcases guarded_eq_next.1 h with ⟨hs, h⟩ | ⟨-, rfl⟩
    · obtain ⟨ho, h⟩ := writeFB_eq_next.1 h
      obtain ⟨hv, hn⟩ := pixelStatus_ok_iff.1 hs
      simp only [Host.Outcome.next.injEq] at h
      exact .inr (.inr (.inr (.inr (.inl ⟨n, c, rfl, hv, hn, ho, h.symm⟩))))
    · exact .inl ⟨_, _, rfl⟩
  | rdbyte a =>
    rcases guarded_eq_next.1 h with ⟨-, h⟩ | ⟨-, rfl⟩
    · obtain ⟨-, h⟩ := readFB_eq_next.1 h
      simp only [Host.Outcome.next.injEq] at h
      exact .inl ⟨_, _, h.symm⟩
    · exact .inl ⟨_, _, rfl⟩
  | flush =>
    rcases guarded_eq_next.1 h with ⟨hs, h⟩ | ⟨-, rfl⟩
    · simp only [Host.Outcome.next.injEq] at h
      exact .inr (.inr (.inr (.inr (.inr ⟨rfl, bufferStatus_ok_iff.1 hs, h.symm⟩))))
    · exact .inl ⟨_, _, rfl⟩

/-! ### What a turn can do -/

/-- The port accepts a word: CORE runs the command it decodes to, or answers IllegalCommand. -/
theorem runOffer_cases {s t : State} {o : Offer} {rest : List Offer} (h : s.runOffer o rest = .next t) :
    (∃ i, decode o.word = .command i ∧ exec i (s.accepted o rest) = .next t) ∨
    (∃ e, decode o.word = .illegal e ∧ t = (s.accepted o rest).raise .illegalCommand) := by
  unfold State.runOffer at h
  split at h
  · next i hi => exact .inl ⟨i, hi, h⟩
  · next e he => exact .inr ⟨e, he, by simpa using h.symm⟩

/-- TRANSPORT's turn: nothing, a byte accepted, or the end of the frame. -/
theorem answered_cases {s t : State} {a : Answer} (h : s.answered a = .next t) :
    t = s ∨
    (a = .accept ∧ s.phase = .stream ∧ s.pos < s.bufLen ∧ s.hasOffsets s.pos 1 = true ∧
      t = s.emitted (readByte s.fb s.pos)) ∨
    (a = .done ∧ s.phase = .stream ∧ s.bufLen ≤ s.pos ∧ t = s.endStream .ok []) ∨
    (∃ terr, a = .fail terr ∧ s.phase = .stream ∧ t = s.endStream .transportError [terr]) := by
  unfold State.answered at h
  split at h
  · exact .inl (by simpa using h.symm)
  · next hp =>
    split at h
    · next hl =>
      cases a with
      | accept =>
        obtain ⟨ho, h⟩ := readFB_eq_next.1 (show s.readFB s.pos (fun b => .next (s.emitted b)) = .next t from h)
        exact .inr (.inl ⟨rfl, hp, hl, ho, by simpa using h.symm⟩)
      | done => exact .inl (by simpa [State.byteStep] using h.symm)
      | fail terr => exact .inr (.inr (.inr ⟨terr, rfl, hp, by simpa [State.byteStep] using h.symm⟩))
    · next hl =>
      cases a with
      | accept => exact .inl (by simpa [State.endStep] using h.symm)
      | done => exact .inr (.inr (.inl ⟨rfl, hp, by omega, by simpa [State.endStep] using h.symm⟩))
      | fail terr => exact .inr (.inr (.inr ⟨terr, rfl, hp, by simpa [State.endStep] using h.symm⟩))

/-- What an arbitration turn does: nothing, or the port accepts the picked host's oldest command. -/
theorem granted_cases {s : State} {h : Nat} :
    s.granted h = .next s ∨
    (∃ o rest, s.phase = .idle ∧ takeOffer h s.waiting = some (o, rest) ∧ s.granted h = s.runOffer o rest) := by
  unfold State.granted
  split
  · next o rest hp ho => exact .inr ⟨o, rest, hp, ho, rfl⟩
  · exact .inl rfl

end Sys2Proof.Machine
end

