-- ==== Sys2Proof/Laws/PerInstr.lean ====
section
/-!
SUPPORT. Per command: its word has the bits of its row of the opcode table (30_encoding.md R93, R95).
-/
namespace Sys2Proof.Laws.EncodingFitsTable

/-- The word of a well-formed `i` shows, under the mask of the row named like `i`, exactly the row's pattern. -/
def Statement (i : Instr) : Prop :=
  i.wellFormed = true → ∃ row ∈ opcodeTable, row.mnemonic = i.mnemonic ∧ encode i &&& row.mask = row.pattern

/-- The masks of the table fix OP, and all or part of X and Y: three checks on fields decide a row. -/
theorem wordOf_and (op op' : Byte) (x x' : BitVec 24) (y y' : Count) :
    wordOf op x y &&& wordOf op' x' y' = wordOf (op &&& op') (x &&& x') (y &&& y') := by
  apply BitVec.eq_of_getLsbD_eq
  intro i hi
  simp only [wordOf, BitVec.getLsbD_and, BitVec.getLsbD_append]
  split_ifs <;> rfl

theorem setWidth_and_above (v : Byte) : v.setWidth 32 &&& 0xFFFFFF00#32 = 0#32 := by
  revert v
  decide

theorem bits_and_above (v : Hsl) : v.bits.setWidth 32 &&& 0xFE000000#32 = 0#32 := by
  apply BitVec.eq_of_getLsbD_eq
  intro i hi
  simp only [BitVec.getLsbD_and, BitVec.getLsbD_setWidth, hi, decide_true, Bool.true_and, BitVec.getLsbD_zero]
  by_cases h : i < 25
  · have mask : ∀ k < 25, (0xFE000000#32).getLsbD k = false := by decide
    simp [mask i h]
  · simp [BitVec.getLsbD_of_ge v.bits i (by omega)]

theorem rgb2hsl (c : Rgb) : Statement (.rgb2hsl c) := fun _ =>
  ⟨⟨"RGB2HSL", wordOf 0xFF#8 0#24 0xFFFFFFFF#32, wordOf 0x01#8 0#24 0#32⟩, by decide, rfl, by
    simp [encode, Instr.opcode, Instr.x, Instr.y, wordOf_and]⟩

theorem hsl2rgb (v : Hsl) : Statement (.hsl2rgb v) := fun _ =>
  ⟨⟨"HSL2RGB", wordOf 0xFF#8 0xFFFFFF#24 0xFE000000#32, wordOf 0x02#8 0#24 0#32⟩, by decide, rfl, by
    simp [encode, Instr.opcode, Instr.x, Instr.y, wordOf_and, bits_and_above]⟩

theorem applyl (base : Rgb) (lv : Byte) : Statement (.applyl base lv) := fun _ =>
  ⟨⟨"APPLYL", wordOf 0xFF#8 0#24 0xFFFFFF00#32, wordOf 0x03#8 0#24 0#32⟩, by decide, rfl, by
    simp [encode, Instr.opcode, Instr.x, Instr.y, wordOf_and, setWidth_and_above]⟩

theorem encch (v : Byte) : Statement (.encch v) := fun _ =>
  ⟨⟨"ENCCH", wordOf 0xFF#8 0xFFFFFF#24 0xFFFFFF00#32, wordOf 0x10#8 0#24 0#32⟩, by decide, rfl, by
    simp [encode, Instr.opcode, Instr.x, Instr.y, wordOf_and, setWidth_and_above]⟩

theorem encpx (c : Rgb) : Statement (.encpx c) := fun _ =>
  ⟨⟨"ENCPX", wordOf 0xFF#8 0#24 0xFFFFFFFF#32, wordOf 0x11#8 0#24 0#32⟩, by decide, rfl, by
    simp [encode, Instr.opcode, Instr.x, Instr.y, wordOf_and]⟩

theorem bufsz (n : Count) : Statement (.bufsz n) := fun _ =>
  ⟨⟨"BUFSZ", wordOf 0xFF#8 0xFFFFFF#24 0#32, wordOf 0x12#8 0#24 0#32⟩, by decide, rfl, by
    simp [encode, Instr.opcode, Instr.x, Instr.y, wordOf_and]⟩

theorem config (n : Count) : Statement (.config n) := fun _ =>
  ⟨⟨"CONFIG", wordOf 0xFF#8 0xFFFFFF#24 0#32, wordOf 0x20#8 0#24 0#32⟩, by decide, rfl, by
    simp [encode, Instr.opcode, Instr.x, Instr.y, wordOf_and]⟩

theorem clear (c : Rgb) : Statement (.clear c) := fun _ =>
  ⟨⟨"CLEAR", wordOf 0xFF#8 0#24 0xFFFFFFFF#32, wordOf 0x21#8 0#24 0#32⟩, by decide, rfl, by
    simp [encode, Instr.opcode, Instr.x, Instr.y, wordOf_and]⟩

theorem setpx (i : Count) (c : Rgb) : Statement (.setpx i c) := fun _ =>
  ⟨⟨"SETPX", wordOf 0xFF#8 0#24 0#32, wordOf 0x22#8 0#24 0#32⟩, by decide, rfl, by
    simp [encode, Instr.opcode, Instr.x, Instr.y, wordOf_and]⟩

theorem setpxf (i : Count) (c : Rgb) : Statement (.setpxf i c) := fun _ =>
  ⟨⟨"SETPXF", wordOf 0xFF#8 0#24 0#32, wordOf 0x23#8 0#24 0#32⟩, by decide, rfl, by
    simp [encode, Instr.opcode, Instr.x, Instr.y, wordOf_and]⟩

theorem rdbyte (a : Count) : Statement (.rdbyte a) := fun _ =>
  ⟨⟨"RDBYTE", wordOf 0xFF#8 0xFFFFFF#24 0#32, wordOf 0x24#8 0#24 0#32⟩, by decide, rfl, by
    simp [encode, Instr.opcode, Instr.x, Instr.y, wordOf_and]⟩

theorem flush : Statement .flush := fun _ =>
  ⟨⟨"FLUSH", wordOf 0xFF#8 0xFFFFFF#24 0xFFFFFFFF#32, wordOf 0x25#8 0#24 0#32⟩, by decide, rfl, by
    simp [encode, Instr.opcode, Instr.x, Instr.y, wordOf_and]⟩

end Sys2Proof.Laws.EncodingFitsTable
end

