-- ==== Sys2Proof/Laws/Step.lean ====
section
/-!
SUPPORT. What one step can do, and what an accepted command leaves alone.
-/
namespace Sys2Proof.Machine

/-- A command changes no parameter, no waiting command and no turn, and answers the host whose command it is. -/
theorem exec_keeps {i : Instr} {s t : State} (h : exec i s = .next t) :
    t.hw = s.hw ∧ t.waiting = s.waiting ∧ t.turns = s.turns ∧ t.client = s.client := by
  rcases exec_cases h with ⟨st, b, rfl⟩ | ⟨n, -, -, -, rfl⟩ | ⟨c, -, -, -, rfl⟩ | ⟨n, c, -, -, -, -, rfl⟩ |
    ⟨n, c, -, -, -, -, rfl⟩ | ⟨-, -, rfl⟩ <;> simp

/-- TRANSPORT's turn changes no parameter, no framebuffer byte, no configuration, no waiting command and no turn. -/
theorem answered_keeps {s t : State} {a : Answer} (h : s.answered a = .next t) :
    t.hw = s.hw ∧ t.fb = s.fb ∧ t.cfgN = s.cfgN ∧ t.cfgValid = s.cfgValid ∧ t.waiting = s.waiting ∧ t.turns = s.turns := by
  rcases answered_cases h with rfl | ⟨-, -, -, -, rfl⟩ | ⟨-, -, -, rfl⟩ | ⟨_, -, -, rfl⟩ <;> simp

/-- The state in which an accepted command runs. -/
theorem accepts_state {s u : State} {o : Offer} (h : s.Accepts o u) :
    s.phase = .idle ∧ ∃ rest, u = { s with turns := s.turns.tail }.accepted o rest := by
  rcases h with ⟨hp, ⟨ht, rest, hw, rfl⟩ | ⟨h, ts, rest, ht, ho, rfl⟩⟩
  · refine ⟨hp, rest, ?_⟩
    cases s
    simp_all
  · exact ⟨hp, rest, by rw [ht]; rfl⟩

/-- A step that accepts a word runs it: the command it decodes to, or IllegalCommand. -/
theorem step_of_accepts {s u : State} {o : Offer} (h : s.Accepts o u) :
    step s = match decode o.word with
      | .command i => exec i u
      | .illegal _ => .next (u.raise .illegalCommand) := by
  rcases h with ⟨hp, ⟨ht, rest, hw, rfl⟩ | ⟨h, ts, rest, ht, ho, rfl⟩⟩
  · cases hd : decode o.word <;> simp only [step, ht, State.coreStep, hp, hw, State.runOffer, hd]
  · cases hd : decode o.word <;> simp only [step, ht, State.takeTurn, State.granted, hp, ho, State.runOffer, hd]

/-- Every state a step can lead to: nothing but the passing of a turn, a new offer, a command accepted and run, TRANSPORT's
answer, or reset. -/
theorem step_cases {s t : State} (h : step s = .next t) :
    t = { s with turns := s.turns.tail } ∨
    (∃ o : Offer, s.turns.head? = some (.offer o.host o.word) ∧ t = { s with turns := s.turns.tail }.offered o) ∨
    (∃ o u, s.Accepts o u ∧
      ((∃ i, decode o.word = .command i ∧ exec i u = .next t) ∨
       (∃ e, decode o.word = .illegal e ∧ t = u.raise .illegalCommand))) ∨
    (∃ a, s.turns.head? = some (.answer a) ∧ { s with turns := s.turns.tail }.answered a = .next t) ∨
    (∃ g, s.turns.head? = some (.reset g) ∧ t = { s with turns := s.turns.tail }.doReset g) := by
  unfold step at h
  split at h
  · next hs =>
    unfold State.coreStep at h
    split at h
    · next o rest hp hw =>
      exact .inr (.inr (.inl ⟨o, _, ⟨hp, .inl ⟨hs, rest, hw, rfl⟩⟩, runOffer_cases h⟩))
    · have hu : { s with turns := s.turns.tail } = s := by
        cases s
        simp_all
      exact .inl (by rw [hu]; simpa using h.symm)
  · next turn ts hs =>
    rw [hs, List.tail_cons]
    cases turn with
    | offer n w => exact .inr (.inl ⟨⟨n, w⟩, rfl, by simpa [State.takeTurn] using h.symm⟩)
    | grant n =>
      simp only [State.takeTurn] at h
      rcases granted_cases (s := { s with turns := ts }) (h := n) with hg | ⟨o, rest, hp, ho, hg⟩
      · rw [hg] at h
        exact .inl (by simpa using h.symm)
      · rw [hg] at h
        exact .inr (.inr (.inl ⟨o, _, ⟨hp, .inr ⟨n, ts, rest, hs, ho, rfl⟩⟩, runOffer_cases h⟩))
    | answer a => exact .inr (.inr (.inr (.inl ⟨a, rfl, h⟩)))
    | reset g => exact .inr (.inr (.inr (.inr ⟨g, rfl, by simpa [State.takeTurn] using h.symm⟩)))

/-- One step more, when it goes on. -/
theorem runSteps_succ_of_next {k : Nat} {s t : State} (h : step s = .next t) : runSteps (k + 1) s = runSteps k t := by
  simp only [runSteps, h]

@[simp] theorem runSteps_zero (s : State) : runSteps 0 s = .next s := rfl

/-- `runSteps` is the host's own run of the machine. -/
theorem runSteps_eq_run (k : Nat) (s : State) : runSteps k s = Host.Core.run Sys2Proof.core k s := by
  induction k generalizing s with
  | zero => rfl
  | succ k ih =>
    have h : Sys2Proof.core.step s = step s := rfl
    simp only [runSteps, Host.Core.run]
    rcases hs : step s with t | r | r <;> rw [hs] at h <;> rw [h]
    · exact ih t
    · rfl
    · rfl

end Sys2Proof.Machine
end

