-- ==== Sys2Proof/Laws/Strip.lean ====
section
/-!
SUPPORT. What it means, byte by byte, that a framebuffer shows a strip (20_memory.md R62).
-/
namespace Sys2Proof.Machine

@[simp] theorem length_slotBytes (hw : Config) (p : Option Rgb) : (slotBytes hw p).length = 24 := by
  cases p <;> simp [slotBytes, Config.group]

theorem length_flatMap_slotBytes (hw : Config) (ps : Strip) : (ps.flatMap (slotBytes hw)).length = 24 * ps.length := by
  induction ps with
  | nil => rfl
  | cons p ps ih =>
    simp only [List.flatMap_cons, List.length_append, length_slotBytes, ih, List.length_cons]
    omega

/-- Slot `i` of the pixel region is the bytes of pixel `i`. -/
theorem getElem?_flatMap_slotBytes (hw : Config) (ps : Strip) (i j : Nat) (hj : j < 24) :
    (ps.flatMap (slotBytes hw))[24 * i + j]? = ps[i]?.bind (fun p => (slotBytes hw p)[j]?) := by
  induction ps generalizing i with
  | nil => simp
  | cons p ps ih =>
    cases i with
    | zero => simp [List.getElem?_append_left, hj]
    | succ i =>
      rw [List.flatMap_cons, List.getElem?_append_right (by simp; omega), length_slotBytes,
        show 24 * (i + 1) + j - 24 = 24 * i + j by omega, ih i]
      simp

/-- Byte `j` of slot `i`, for a pixel that is there. -/
theorem getD_flatMap_slotBytes (hw : Config) (ps : Strip) {i j : Nat} {p : Option Rgb} (hp : ps[i]? = some p)
    (hj : j < 24) : (ps.flatMap (slotBytes hw)).getD (24 * i + j) 0#8 = (slotBytes hw p).getD j 0#8 := by
  rw [List.getD_eq_getElem?_getD, getElem?_flatMap_slotBytes hw ps i j hj, hp, List.getD_eq_getElem?_getD]
  rfl

/-- A buffer of `n` pixels is the bytes of a strip exactly when each reset region reads as ZERO and each byte of the pixel
region as the byte of its slot (R62). -/
theorem memRead_eq_stripBytes_iff (m : List Host.Cell) (hw : Config) (ps : Strip) :
    memRead m 0 (bufferSize ps.length) = stripBytes hw ps ↔
      (∀ a < 96, readByte m a = 0#8) ∧
      (∀ k < 24 * ps.length, readByte m (96 + k) = (ps.flatMap (slotBytes hw)).getD k 0#8) ∧
      (∀ k < 96, readByte m (96 + 24 * ps.length + k) = 0#8) := by
  have hsplit : memRead m 0 (bufferSize ps.length) =
      memRead m 0 96 ++ memRead m 96 (24 * ps.length) ++ memRead m (96 + 24 * ps.length) 96 := by
    rw [bufferSize_eq, show 192 + 24 * ps.length = 96 + 24 * ps.length + 96 by omega, memRead_add, memRead_add]
    simp
  have hzero : ∀ x, memRead m x 96 = List.replicate 96 0#8 ↔ ∀ k < 96, readByte m (x + k) = 0#8 := fun x => by
    constructor
    · intro h k hk
      have := congrArg (fun l => l[k]?) h
      simpa only [getElem?_memRead, List.getElem?_replicate, if_pos hk, Option.some.injEq] using this
    · intro h
      apply List.ext_getElem?
      intro k
      simp only [getElem?_memRead, List.getElem?_replicate]
      split
      · next hk => rw [h k hk]
      · rfl
  have hmid : memRead m 96 (24 * ps.length) = ps.flatMap (slotBytes hw) ↔
      ∀ k < 24 * ps.length, readByte m (96 + k) = (ps.flatMap (slotBytes hw)).getD k 0#8 := by
    have hlen := length_flatMap_slotBytes hw ps
    constructor
    · intro h k hk
      rw [← h, List.getD_eq_getElem?_getD, getElem?_memRead, if_pos hk]
      rfl
    · intro h
      apply List.ext_getElem?
      intro k
      rw [getElem?_memRead]
      split
      · next hk =>
        rw [h k hk, List.getD_eq_getElem?_getD, List.getElem?_eq_getElem (by omega)]
        rfl
      · next hk => rw [List.getElem?_eq_none (by omega)]
  rw [hsplit, stripBytes]
  constructor
  · intro h
    obtain ⟨h1, h3⟩ := List.append_inj h (by simp only [List.length_append, length_memRead, List.length_replicate,
      length_flatMap_slotBytes])
    obtain ⟨h1, h2⟩ := List.append_inj h1 (by simp only [length_memRead, List.length_replicate])
    exact ⟨by simpa using (hzero 0).1 h1, hmid.1 h2, (hzero _).1 h3⟩
  · rintro ⟨h1, h2, h3⟩
    rw [(hzero 0).2 (by simpa using h1), hmid.2 h2, (hzero _).2 h3]

/-- `State.Shows`, byte by byte. -/
theorem shows_iff (s : State) (ps : Strip) :
    s.Shows ps ↔ ps.length = s.pixels ∧
      (∀ a < 96, readByte s.fb a = 0#8) ∧
      (∀ k < 24 * s.pixels, readByte s.fb (96 + k) = (ps.flatMap (slotBytes s.hw)).getD k 0#8) ∧
      (∀ k < 96, readByte s.fb (96 + 24 * s.pixels + k) = 0#8) := by
  unfold State.Shows State.bufLen
  constructor
  · rintro ⟨hl, h⟩
    rw [← hl] at h ⊢
    exact ⟨rfl, (memRead_eq_stripBytes_iff _ _ _).1 h⟩
  · rintro ⟨hl, h⟩
    rw [← hl] at h ⊢
    exact ⟨rfl, (memRead_eq_stripBytes_iff _ _ _).2 h⟩

/-- The bytes CLEAR writes are the slots of a strip of one colour. -/
theorem clearBytes_eq (hw : Config) (n : Nat) (c : Rgb) :
    clearBytes hw n c = (List.replicate n (some c)).flatMap (slotBytes hw) := by
  induction n with
  | zero => rfl
  | succ n ih =>
    simp only [clearBytes, List.replicate_succ, List.flatten_cons, List.flatMap_cons] at ih ⊢
    rw [ih]
    rfl

end Sys2Proof.Machine
end

