-- ==== Sys2Proof/Laws/SymbolCodec.lean ====
section
/-!
SUPPORT. The symbols of a channel and of a pixel, and the bytes of a beat of 8 symbols.
-/
namespace Sys2Proof.Machine

/-- Element k of `encode_channel(v)` is `sym(v[7 - k])` (41_symbolcodec.md R161). -/
theorem getElem?_encodeChannel (hw : Config) (v : Byte) (k : Nat) (hk : k < 8) :
    (encodeChannel hw v)[k]? = some (sym hw (v.getLsbD (7 - k))) := by
  interval_cases k <;> rfl

/-- The two symbols differ (00_scope.md R8). -/
theorem sym_inj {hw : Config} (h : hw.Valid) {p q : Bool} : sym hw p = sym hw q ↔ p = q := by
  obtain ⟨-, -, hne, -, -⟩ := h
  cases p <;> cases q <;> simp [sym, hne, hne.symm]

/-- No symbol of a data bit is ZERO (00_scope.md R8). -/
theorem sym_ne_zero {hw : Config} (h : hw.Valid) (p : Bool) : sym hw p ≠ 0#8 := by
  obtain ⟨-, -, -, hl, hh⟩ := h
  cases p <;> simp [sym, hl, hh]

theorem shift_or_getLsbD (acc : Word) (b : Byte) (i : Nat) (hi : i < 64) :
    ((acc <<< 8) ||| b.setWidth 64).getLsbD i = if i < 8 then b.getLsbD i else acc.getLsbD (i - 8) := by
  simp only [BitVec.getLsbD_or, BitVec.getLsbD_shiftLeft, BitVec.getLsbD_setWidth, hi, decide_true, Bool.true_and]
  split
  · next h => simp [h]
  · next h => simp [h, BitVec.getLsbD_of_ge b i (by omega)]

/-- Bit `8 * m + i` of a packed list is bit `i` of its `m`-th symbol from the end. -/
theorem symbolsBeat_append_getLsbD (ss : List Byte) (b : Byte) (i : Nat) (hi : i < 64) :
    (symbolsBeat (ss ++ [b])).getLsbD i = if i < 8 then b.getLsbD i else (symbolsBeat ss).getLsbD (i - 8) := by
  simp only [symbolsBeat, List.foldl_append, List.foldl_cons, List.foldl_nil]
  exact shift_or_getLsbD _ _ _ hi

/-- A beat of 8 symbols is their concatenation, the first most significant (30_encoding.md R101). -/
theorem symbolsBeat_eight (b0 b1 b2 b3 b4 b5 b6 b7 : Byte) :
    symbolsBeat [b0, b1, b2, b3, b4, b5, b6, b7] = b0 ++ b1 ++ b2 ++ b3 ++ b4 ++ b5 ++ b6 ++ b7 := by
  apply BitVec.eq_of_getLsbD_eq
  intro i hi
  simp only [symbolsBeat, List.foldl_cons, List.foldl_nil, BitVec.getLsbD_append]
  simp (disch := omega) only [shift_or_getLsbD]
  split_ifs <;> first | rfl | omega

end Sys2Proof.Machine
end

