-- ==== Sys2Proof/Machine/Assembler.lean ====
section
/-!
DEFINITION. The assembly syntax of 30_encoding.md R103 and the pseudo-command of R104: one line of text to one command word.
Nothing of the machine uses it. What R103 leaves open about spaces and letters: log entry 19.
-/
namespace Sys2Proof.Machine

def isSpace (c : Char) : Bool := c = ' ' || c = '\t'

/-- The text of a line before its comment (R103). -/
def beforeComment (cs : List Char) : List Char := cs.takeWhile (fun c => decide (c ≠ ';'))

def trimLeft (cs : List Char) : List Char := cs.dropWhile isSpace

def trimText (cs : List Char) : List Char := (trimLeft (trimLeft cs).reverse).reverse

/-- The operands, separated by commas (R103). -/
def splitCommas : List Char → List (List Char)
  | []      => [[]]
  | c :: cs =>
    if c = ',' then [] :: splitCommas cs
    else match splitCommas cs with
      | []      => [[c]]
      | f :: fs => (c :: f) :: fs

/-- The digits of the two bases R103 names; base 10 uses the first ten. -/
def digitChars : List Char := "0123456789ABCDEF".toList

/-- The number the digits `cs` write in base `base`, most significant first; none if one of them is no digit of that base
(R103). -/
def numberOf (base : Nat) (cs : List Char) : Option Nat :=
  (cs.mapM (fun c => (digitChars.take base).idxOf? c.toUpper)).map (fun ds => Nat.ofDigits base ds.reverse)

/-- A decimal or `0x` hexadecimal number (R103). -/
def parseNumber (cs : List Char) : Option Nat :=
  match cs with
  | []               => none
  | ['0', 'x']       => none
  | '0' :: 'x' :: ds => numberOf 16 ds
  | ds               => numberOf 10 ds

/-- A number that fits in `n` bits: an operand has no bits beyond its field (R92, R93). -/
def parseBits (n : Nat) (cs : List Char) : Option (BitVec n) :=
  match parseNumber cs with
  | some v => if v < 2 ^ n then some (BitVec.ofNat n v) else none
  | none   => none

/-- A COLOR, written `#RRGGBB` (R103). -/
def parseColor : List Char → Option Rgb
  | '#' :: ds => if ds.length = 6 then (numberOf 16 ds).map (fun v => colorOf (BitVec.ofNat 24 v)) else none
  | _         => none

/-- The command of a mnemonic and its operands (R103, R104). HSL2RGB takes any 9-bit H: R103 gives a hue of 360 or more the
word that the decoder then refuses (R94). -/
def commandOf (mnemonic : List Char) (ops : List (List Char)) : Option Instr :=
  match String.ofList mnemonic, ops with
  | "RGB2HSL", [c]       => (parseColor c).map .rgb2hsl
  | "HSL2RGB", [h, s, l] =>
    match parseBits 9 h, parseBits 8 s, parseBits 8 l with
    | some h, some s, some l => some (.hsl2rgb ⟨h, s, l⟩)
    | _, _, _                => none
  | "APPLYL", [c, v]     =>
    match parseColor c, parseBits 8 v with
    | some c, some v => some (.applyl c v)
    | _, _           => none
  | "ENCCH", [v]         => (parseBits 8 v).map .encch
  | "ENCPX", [c]         => (parseColor c).map .encpx
  | "BUFSZ", [n]         => (parseBits 32 n).map .bufsz
  | "CONFIG", [n]        => (parseBits 32 n).map .config
  | "CLEAR", [c]         => (parseColor c).map .clear
  | "BLANK", []          => some Instr.blank
  | "SETPX", [i, c]      =>
    match parseBits 32 i, parseColor c with
    | some i, some c => some (.setpx i c)
    | _, _           => none
  | "SETPXF", [i, c]     =>
    match parseBits 32 i, parseColor c with
    | some i, some c => some (.setpxf i c)
    | _, _           => none
  | "RDBYTE", [a]        => (parseBits 32 a).map .rdbyte
  | "FLUSH", []          => some .flush
  | _, _                 => none

/-- The operands of a line after its mnemonic: none, or a list separated by commas. -/
def operandsOf (rest : List Char) : List (List Char) :=
  if trimText rest = [] then [] else (splitCommas rest).map trimText

/-- One line to its command (R103). -/
def assembleCommand (line : String) : Option Instr :=
  let text := trimText (beforeComment line.toList)
  commandOf (text.takeWhile (fun c => !isSpace c)) (operandsOf (text.dropWhile (fun c => !isSpace c)))

/-- One line to its command word (R103). -/
def assemble (line : String) : Option Word := (assembleCommand line).map encode

end Sys2Proof.Machine
end

