-- ==== Sys2Proof/Tests/Slice0.lean ====
section
/-!
SUPPORT. The model's own tests, with the expected values of 95_test_vectors.md, and one witness for every obligation that
has hypotheses. The parameters are those of that file, section 2.8: N_MAX = 16, SYM_LOW = 0xC0, SYM_HIGH = 0xF8.
-/
namespace Sys2Proof.Tests

open Sys2Proof.Machine

/-! ### Small states -/

def hw : Config := ⟨16, 0xC0#8, 0xF8#8⟩

/-- After reset, on a chip with the parameters above. -/
def fresh : State := { State.reset with hw := hw }

/-- CFG_N = `n`, all bytes of the live buffer 0x00. -/
def strip (n : Count) : State := { fresh with cfgValid := true, cfgN := n }

/-- CFG_N = 3 after `SETPX 1, #00FF00` (95_test_vectors.md F17): bytes 120 to 143 of the framebuffer. -/
def greenSlot : State :=
  { strip 3 with fb := (List.range' 120 8).map (·, 0xF8#8) ++ (List.range' 128 16).map (·, 0xC0#8) }

/-- A stream under way, with the given POS and turns to come. -/
def streaming (n : Count) (pos : Nat) (ts : List Turn) : State :=
  { strip n with phase := .stream, pos := pos, turns := ts, trace := [.accept 0 0x2500000000000000#64] }

/-- The event a step added last. -/
def lastEvent : Outcome → Option Event
  | .next t    => t.trace.head?
  | .fault _   => none
  | .refused _ => none

/-- The framebuffer bytes of the next state from `a` on. -/
def bytesAt (a n : Nat) : Outcome → List Byte
  | .next t    => memRead t.fb a n
  | .fault _   => []
  | .refused _ => []

/-- The listed framebuffer offsets of the next state. -/
def written : Outcome → List Nat
  | .next t    => t.fb.map Prod.fst
  | .fault _   => []
  | .refused _ => []

/-- Whether a frame starts. -/
def startsStream : Outcome → Bool
  | .next t    => decide (t.phase = .stream ∧ t.pos = 0)
  | .fault _   => false
  | .refused _ => false

/-! ### WellFormed: the one check, and what the decoder refuses -/

/-- R94: a hue of 360 is no operand of HSL2RGB. -/
theorem test_wellFormed_refuses_hue_360 : (Instr.hsl2rgb ⟨360, 255, 128⟩).wellFormed = false := by decide

theorem test_wellFormed_accepts_hue_359 : (Instr.hsl2rgb ⟨359, 255, 128⟩).wellFormed = true := by decide

/-! ### Decoding: one word per command, written out from 30_encoding.md R91, R92, R95 (vectors: 95_test_vectors.md 2.1) -/

theorem test_decode_rgb2hsl : decode 0x0112345600000000#64 = .command (.rgb2hsl ⟨0x12, 0x34, 0x56⟩) := by decide

theorem test_decode_hsl2rgb : decode 0x0200000000D2A734#64 = .command (.hsl2rgb ⟨210, 167, 52⟩) := by decide

theorem test_decode_applyl : decode 0x03FF000000000080#64 = .command (.applyl ⟨255, 0, 0⟩ 128) := by decide

theorem test_decode_encch : decode 0x1000000000000080#64 = .command (.encch 0x80) := by decide

theorem test_decode_encpx : decode 0x1100FF0000000000#64 = .command (.encpx ⟨0, 255, 0⟩) := by decide

theorem test_decode_bufsz : decode 0x12000000FFFFFFFF#64 = .command (.bufsz 4294967295) := by decide

theorem test_decode_config : decode 0x2000000000000003#64 = .command (.config 3) := by decide

theorem test_decode_clear : decode 0x21C8643200000000#64 = .command (.clear ⟨0xC8, 0x64, 0x32⟩) := by decide

theorem test_decode_setpx : decode 0x22FFFFFFFFFFFFFF#64 = .command (.setpx 4294967295 ⟨255, 255, 255⟩) := by decide

theorem test_decode_setpxf : decode 0x2300FF0000000001#64 = .command (.setpxf 1 ⟨0, 255, 0⟩) := by decide

theorem test_decode_rdbyte : decode 0x2400000000000078#64 = .command (.rdbyte 120) := by decide

theorem test_decode_flush : decode 0x2500000000000000#64 = .command .flush := by decide

/-- R93: a reserved bit that is 1, one word per form that has one. -/
theorem test_decode_reserved_bits :
    [ 0x0112345600000001, 0x0200000002000000, 0x0201000000000000, 0x03FF000000000180, 0x10000000000001A5
    , 0x11FFFFFF00000001, 0x1200000100000003, 0x2000000100000003, 0x2100000000000001, 0x2400000100000000
    , 0x2500000000000001, 0x2500000100000000 ].all (fun w => (decodeTableWord 64 w).isNone) = true := by decide

/-- R94: hue 360. -/
theorem test_decode_hue_360 : decode 0x020000000168FF80#64 = .illegal (.hueOutOfRange 360) := by decide

/-- R96. -/
theorem test_decode_unassigned :
    [0x0000000000000000, 0x0500000000000000, 0x2600000000000000, 0xFF00000000000000].all
      (fun w => (decodeTableWord 64 w).isNone) = true := by decide

/-- R103, R104: the assembler's lines of 95_test_vectors.md section 3, the illegal hue of P3 among them. -/
theorem test_assemble :
    assemble "BLANK                   ; OK" = some 0x2100000000000000#64 ∧
    assemble "SETPXF 1, #00FF00" = some 0x2300FF0000000001#64 ∧
    assemble "HSL2RGB 360, 255, 128   ; IllegalCommand" = some 0x020000000168FF80#64 := by decide

/-! ### One step of each command -/

/-- 95_test_vectors.md 2.2. -/
theorem test_rgb2hsl : lastEvent (exec (.rgb2hsl ⟨0x12, 0x34, 0x56⟩) fresh) = some (.respond 0 .ok [0xD2A734#64]) := by
  decide

/-- 95_test_vectors.md 2.2: the tie of red and blue, with a hue above 255. -/
theorem test_rgb2hsl_tie : lastEvent (exec (.rgb2hsl ⟨255, 0, 255⟩) fresh) = some (.respond 0 .ok [0x12CFF7F#64]) := by
  decide

/-- 95_test_vectors.md 2.4: the largest hue, in the high branch. -/
theorem test_hsl2rgb : lastEvent (exec (.hsl2rgb ⟨359, 255, 128⟩) fresh) = some (.respond 0 .ok [0xFF0206#64]) := by decide

/-- 95_test_vectors.md 2.4: the low branch. -/
theorem test_hsl2rgb_low : lastEvent (exec (.hsl2rgb ⟨30, 128, 100⟩) fresh) = some (.respond 0 .ok [0x976432#64]) := by
  decide

/-- 95_test_vectors.md 2.3. -/
theorem test_applyl : lastEvent (exec (.applyl ⟨0xC8, 0x64, 0x32⟩ 200) fresh) = some (.respond 0 .ok [0x9D4F27#64]) := by
  decide

/-- 95_test_vectors.md 2.5: most significant bit first. -/
theorem test_encch : lastEvent (exec (.encch 0x80) fresh) = some (.respond 0 .ok [0xF8C0C0C0C0C0C0C0#64]) := by decide

/-- 95_test_vectors.md 2.6: green first. -/
theorem test_encpx : lastEvent (exec (.encpx ⟨0xC8, 0x64, 0x32⟩) fresh) =
    some (.respond 0 .ok [0xC0F8F8C0C0F8C0C0#64, 0xF8F8C0C0F8C0C0C0#64, 0xC0C0F8F8C0C0F8C0#64]) := by decide

/-- 95_test_vectors.md 2.7. -/
theorem test_bufsz : lastEvent (exec (.bufsz 4294967295) fresh) = some (.respond 0 .ok [0x18000000A8#64]) := by decide

/-- 95_test_vectors.md F14: a new configuration zeroes the old slot. -/
theorem test_config : bytesAt 120 2 (exec (.config 2) greenSlot) = [0, 0] := by decide

/-- 95_test_vectors.md F6. -/
theorem test_config_too_large : lastEvent (exec (.config 17) fresh) = some (.respond 0 .invalidSize []) := by decide

/-- 95_test_vectors.md F16: each slot is 8 LOW, 8 HIGH, 8 LOW; here the last bytes of slot 2 and the suffix. -/
theorem test_clear : bytesAt 151 18 (exec (.clear ⟨255, 0, 0⟩) (strip 3)) =
    [0xC0, 0xF8, 0xF8, 0xF8, 0xF8, 0xF8, 0xF8, 0xF8, 0xF8, 0xC0, 0xC0, 0xC0, 0xC0, 0xC0, 0xC0, 0xC0, 0xC0, 0] := by decide

/-- 95_test_vectors.md F9: offsets 120 to 143 and no other. -/
theorem test_setpx : written (exec (.setpx 1 ⟨255, 255, 255⟩) (strip 2)) = List.range' 120 24 := by decide

/-- 95_test_vectors.md F12: NotConfigured before IndexOutOfRange. -/
theorem test_setpx_unconfigured :
    lastEvent (exec (.setpx 7 ⟨255, 255, 255⟩) fresh) = some (.respond 0 .notConfigured []) := by decide

/-- 95_test_vectors.md T3: the slot is written and the frame starts. -/
theorem test_setpxf : startsStream (exec (.setpxf 1 ⟨0, 0, 255⟩) (strip 2)) = true ∧
    bytesAt 135 2 (exec (.setpxf 1 ⟨0, 0, 255⟩) (strip 2)) = [0xC0, 0xF8] := by decide

/-- 95_test_vectors.md F18: the first red symbol of slot 1. -/
theorem test_rdbyte : lastEvent (exec (.rdbyte 128) greenSlot) = some (.respond 0 .ok [0xC0#64]) := by decide

/-- 95_test_vectors.md F11. -/
theorem test_rdbyte_end : lastEvent (exec (.rdbyte 240) (strip 2)) = some (.respond 0 .indexOutOfRange []) := by decide

/-- 95_test_vectors.md T6: no response yet. -/
theorem test_flush : startsStream (exec .flush (strip 1)) = true ∧ lastEvent (exec .flush (strip 1)) = none := by decide

/-! ### The stream, the port and the reference host -/

/-- 95_test_vectors.md T3, T4: byte 120 of the buffer, and the value of a failure. -/
theorem test_stream : lastEvent (step { streaming 3 120 [.answer .accept] with fb := greenSlot.fb }) = some (.emit 0xF8#8) ∧
    lastEvent (step (streaming 2 240 [.answer (.fail 7#64)])) = some (.respond 0 .transportError [7#64]) := by decide

/-- 95_test_vectors.md F13: an illegal word before NotConfigured. -/
theorem test_illegal_word : lastEvent (step (fresh.withFetchWord 64 0x2400000100000005)) =
    some (.respond 0 .illegalCommand []) := by decide

/-- The host's own question: a word placed after reset is the command the first step runs. -/
theorem test_first_command : lastEvent (step (State.reset.withFetchWord 64 0x12000000000000FF)) =
    some (.respond 0 .ok [0x18A8#64]) := by decide

/-- The configuration list of 95_test_vectors.md S6. -/
def ledConfigs : List LedConfig := [⟨"a", ⟨255, 0, 0⟩, 255⟩, ⟨"b", ⟨0, 255, 0⟩, 255⟩, ⟨"c", ⟨0, 0, 255⟩, 255⟩]

def okResponse : Response := ⟨.ok, []⟩

def okBeat (w : Word) : Response := ⟨.ok, [w]⟩

/-- 95_test_vectors.md P1: the commands of the construction, in order. -/
theorem test_construct :
    (((construct .off ledConfigs).replay [okResponse, okResponse, okBeat 0, okResponse, okBeat 0, okResponse, okBeat 0,
      okResponse, okResponse]).1.filterMap (fun a => match a with | .issue i => some (encode i) | .store _ _ => none)) =
    [0x2000000000000003#64, 0x2100000000000000#64, 0x03FF000000000000#64, 0x2200000000000000#64, 0x0300FF0000000000#64,
     0x2200000000000001#64, 0x030000FF00000000#64, 0x2200000000000002#64, 0x2500000000000000#64] := by decide

/-- 95_test_vectors.md F5, R223: InvalidSize aborts. -/
theorem test_construct_aborts : (construct .off []).replay [⟨.invalidSize, []⟩] =
    ([.issue (.config 0)], some (.aborted ⟨.invalidSize, []⟩)) := by decide

/-- 95_test_vectors.md P2: the red override of 128 is gone after MainBrightness(255), and SETPXF's failure is returned with
its beat. -/
theorem test_apply_and_flush :
    ((applyAndFlush [⟨⟨255, 0, 0⟩, 255, 0, ⟨128, 0, 0⟩⟩] 0 (.mainBrightness 255)).replay
      [okBeat 0xFF0000#64, ⟨.transportError, [7#64]⟩]) =
    ([.issue (.applyl ⟨255, 0, 0⟩ 255), .store 0 ⟨⟨255, 0, 0⟩, 255, 255, ⟨255, 0, 0⟩⟩, .issue (.setpxf 0 ⟨255, 0, 0⟩)],
      some (.returned ⟨.transportError, [7#64]⟩)) := by decide

/-- 48_host_protocol.md R229. -/
theorem test_unknown_unit : (applyAndFlush [] 0 (.redChannel 1)).replay [] = ([], some .unknownUnit) := by decide

/-! ### Witnesses: states and operands that meet the hypotheses of the obligations, at the ends of their ranges -/

/-- A host 3 waits with `w` behind host 0's CONFIG, and the port's arbitration picks it. -/
def offering (w : Word) : State :=
  { fresh with waiting := [⟨0, 0x2000000000000001#64⟩, ⟨3, w⟩], turns := [.grant 3] }

/-- The state in which the command of `offering w` runs. -/
def accepting (w : Word) : State :=
  { fresh with client := 3, waiting := [⟨0, 0x2000000000000001#64⟩], trace := [.accept 3 w] }

theorem offering_accepts (w : Word) : (offering w).Accepts ⟨3, w⟩ (accepting w) :=
  ⟨rfl, .inr ⟨3, [], [⟨0, 0x2000000000000001#64⟩], rfl, rfl, rfl⟩⟩

/-- The other way to accept: no turn is scheduled. -/
theorem waiting_accepts (w : Word) : { fresh with waiting := [⟨3, w⟩] }.Accepts ⟨3, w⟩
    { fresh with client := 3, trace := [.accept 3 w] } :=
  ⟨rfl, .inl ⟨rfl, [], rfl, rfl⟩⟩

theorem witness_DecodeEncodeRoundTrip :
    (Instr.hsl2rgb ⟨359, 255, 255⟩).wellFormed = true ∧ (Instr.setpx 4294967295 ⟨255, 255, 255⟩).wellFormed = true := by
  decide

theorem witness_DecodedWordReencodes : decode 0x020000000167FFFF#64 = .command (.hsl2rgb ⟨359, 255, 255⟩) := by decide

theorem witness_DecoderAcceptsTableRows :
    (∃ i, decode 0x020000000167FFFF#64 = .command i) ∧ ¬ ∃ i, decode 0x020000000168FFFF#64 = .command i :=
  ⟨⟨.hsl2rgb ⟨359, 255, 255⟩, by decide⟩, by
    rw [show decode 0x020000000168FFFF#64 = .illegal (.hueOutOfRange 360) by decide]
    rintro ⟨i, h⟩
    cases h⟩

theorem witness_StepRunsDecodedCommand :
    (offering 0x2000000000000010#64).Accepts ⟨3, 0x2000000000000010#64⟩ (accepting 0x2000000000000010#64) ∧
    decode (Offer.mk 3 0x2000000000000010#64).word = .command (.config 16) :=
  ⟨offering_accepts _, by decide⟩

theorem witness_IllegalWordWritesNoState :
    (offering 0x2500000000000001#64).Accepts ⟨3, 0x2500000000000001#64⟩ (accepting 0x2500000000000001#64) ∧
    decode (Offer.mk 3 0x2500000000000001#64).word = .illegal (.reservedBits 0x25) :=
  ⟨offering_accepts _, by decide⟩

theorem witness_UnassignedOpcodeIsIllegal :
    (offering 0x2600000000000000#64).Accepts ⟨3, 0x2600000000000000#64⟩ (accepting 0x2600000000000000#64) ∧
    opField (Offer.mk 3 0x2600000000000000#64).word ∉
      [0x01#8, 0x02#8, 0x03#8, 0x10#8, 0x11#8, 0x12#8, 0x20#8, 0x21#8, 0x22#8, 0x23#8, 0x24#8, 0x25#8] :=
  ⟨offering_accepts _, by decide⟩

/-- One state for each of the three clauses. -/
theorem witness_StreamAcceptsNoCommand :
    ((streaming 1 0 []).phase = .stream ∧ (streaming 1 0 []).turns = []) ∧
    ((streaming 1 0 [.grant 0]).phase = .stream ∧ (streaming 1 0 [.grant 0]).turns = .grant 0 :: []) ∧
    ((streaming 1 0 [.offer 0 0#64]).phase = .stream ∧ (streaming 1 0 [.offer 0 0#64]).turns = .offer 0 0#64 :: []) := by
  decide

theorem witness_ArbitrationKeepsIssueOrder :
    takeOffer 1 [⟨0, 5#64⟩, ⟨1, 6#64⟩, ⟨1, 7#64⟩] = some (⟨1, 6#64⟩, [⟨0, 5#64⟩, ⟨1, 7#64⟩]) ∧
    takeOffer 2 [⟨0, 5#64⟩, ⟨1, 6#64⟩, ⟨1, 7#64⟩] = none := by decide

/-- An offer is added, and one is taken. -/
theorem witness_OffersWaitUntilAccepted :
    ((∃ t, step { fresh with turns := [.offer 3 5#64] } = .next t ∧ t.waiting = [⟨3, 5#64⟩]) ∧
      ∀ g, ({ fresh with turns := [.offer 3 5#64] } : State).turns.head? ≠ some (.reset g)) ∧
    (∃ t, step (offering 0x2500000000000000#64) = .next t ∧ t.waiting = [⟨0, 0x2000000000000001#64⟩]) ∧
      ∀ g, (offering 0x2500000000000000#64).turns.head? ≠ some (.reset g) :=
  ⟨⟨⟨_, rfl, rfl⟩, by simp⟩, ⟨_, rfl, rfl⟩, by simp [offering]⟩

/-- The last is the clause of R127: a grey. -/
theorem witness_HslResultIsValid : (rgbToHsl ⟨128, 128, 128⟩).s = 0#8 ∧ (rgbToHsl ⟨0, 0, 1⟩).s ≠ 0#8 := by decide

/-- A colour for each of the three clauses, and one at which two of them hold together. -/
theorem witness_HueIndependentOfTestOrder :
    (chroma ⟨255, 1, 0⟩ ≠ 0 ∧ maxChannel ⟨255, 1, 0⟩ = 255) ∧ (chroma ⟨0, 255, 0⟩ ≠ 0 ∧ maxChannel ⟨0, 255, 0⟩ = 255) ∧
    (chroma ⟨0, 0, 1⟩ ≠ 0 ∧ maxChannel ⟨0, 0, 1⟩ = 1) ∧ chroma ⟨255, 0, 255⟩ ≠ 0 := by decide

/-- A value for each of the three clauses, and one at which two of them hold and agree. -/
theorem witness_Hsl2rgbGreyBlackWhite :
    ((Hsl.mk 359 0 77).h.toNat ≤ 359 ∧ (Hsl.mk 359 0 77).s = 0#8) ∧
    ((Hsl.mk 45 255 0).h.toNat ≤ 359 ∧ (Hsl.mk 45 255 0).l = 0#8) ∧
    ((Hsl.mk 300 255 255).h.toNat ≤ 359 ∧ (Hsl.mk 300 255 255).l = 255#8) ∧
    hslToRgb ⟨0, 0, 255⟩ = ⟨255, 255, 255⟩ ∧ hslToRgb ⟨0, 0, 0⟩ = ⟨0, 0, 0⟩ := by decide

/-- Both branches of R129, at the ends of the ranges of L. -/
theorem witness_Hsl2rgbFollowsFormulas : ∀ v ∈ ([⟨359, 1, 1⟩, ⟨0, 255, 127⟩, ⟨59, 255, 128⟩, ⟨180, 255, 254⟩] : List Hsl),
    v.h.toNat ≤ 359 ∧ v.s ≠ 0#8 ∧ v.l ≠ 0#8 ∧ v.l ≠ 255#8 := by decide

theorem witness_Hsl2rgbRefusesHue :
    (offering 0x020000000168FF80#64).Accepts ⟨3, 0x020000000168FF80#64⟩ (accepting 0x020000000168FF80#64) ∧
    opField (Offer.mk 3 0x020000000168FF80#64).word = 0x02#8 ∧
    360 ≤ (hslOf (yField (Offer.mk 3 0x020000000168FF80#64).word)).h.toNat :=
  ⟨offering_accepts _, by decide, by decide⟩

theorem witness_SymbolCodesInjective :
    hw.Valid ∧ encodeChannel hw 255 = encodeChannel hw 255 ∧ encodePixel hw ⟨1, 2, 3⟩ = encodePixel hw ⟨1, 2, 3⟩ := by
  decide

theorem witness_SymbolsAreNeverZero : hw.Valid := by decide

/-- The smallest and the largest count. -/
theorem witness_ConfigCreatesZeroBuffer : ∀ n ∈ ([1, 16] : List Count), 1 ≤ n.toNat ∧ n.toNat ≤ fresh.hw.nMax := by
  intro n hn
  fin_cases hn <;> decide

/-- The two sides of the range. -/
theorem witness_ConfigRefusesSize : ∀ n ∈ ([0, 17] : List Count), n.toNat = 0 ∨ fresh.hw.nMax < n.toNat := by
  intro n hn
  fin_cases hn <;> decide

/-- The smallest and the largest buffer. -/
theorem witness_ClearWritesEverySlot :
    ∀ n ∈ ([1, 16] : List Count), (strip n).cfgValid = true ∧ (strip n).pixels ≤ (strip n).hw.nMax := by
  intro n hn
  fin_cases hn <;> decide

/-- The first and the last slot of the largest buffer. -/
theorem witness_SetpxWritesItsSlot : ∀ i ∈ ([0, 15] : List Count),
    (strip 16).cfgValid = true ∧ (strip 16).pixels ≤ (strip 16).hw.nMax ∧ i.toNat < (strip 16).pixels := by
  intro i hi
  fin_cases hi <;> decide

theorem witness_SetpxfWritesSlotAndStartsStream : ∀ i ∈ ([0, 15] : List Count),
    (strip 16).cfgValid = true ∧ (strip 16).pixels ≤ (strip 16).hw.nMax ∧ i.toNat < (strip 16).pixels := by
  intro i hi
  fin_cases hi <;> decide

/-- The first and the last offset of the largest buffer. -/
theorem witness_RdbyteReadsLiveByte : ∀ a ∈ ([0, 575] : List Count),
    (strip 16).cfgValid = true ∧ (strip 16).pixels ≤ (strip 16).hw.nMax ∧ a.toNat < 24 * (8 + (strip 16).cfgN.toNat) := by
  intro a ha
  fin_cases ha <;> decide

theorem witness_FlushStartsStream : (strip 1).cfgValid = true := by decide

theorem witness_UnconfiguredCommandsRefused : fresh.cfgValid = false := by decide

/-- The first index and the first offset out of range. -/
theorem witness_OutOfRangeRefused :
    (strip 16).cfgValid = true ∧ (strip 16).cfgN.toNat ≤ (16#32).toNat ∧
      24 * (8 + (strip 16).cfgN.toNat) ≤ (576#32).toNat := by decide

theorem witness_FailedCommandWritesNothing :
    exec (.rdbyte 240) (strip 2) = .next ((strip 2).respond .indexOutOfRange []) ∧
    ((strip 2).respond .indexOutOfRange []).trace = .respond 0 .indexOutOfRange [] :: (strip 2).trace ∧
    Status.indexOutOfRange ≠ .ok :=
  ⟨rfl, rfl, by decide⟩

/-- The last slot of the largest buffer. -/
theorem witness_SlotHoldsChannelBits :
    (strip 16).cfgValid = true ∧ (15#32).toNat < (strip 16).pixels ∧
      ∃ t, exec (.setpx 15 ⟨255, 0, 1⟩) (strip 16) = .next t :=
  ⟨rfl, by decide, _, rfl⟩

/-- A state for each of the three commands. -/
theorem witness_RepeatedWriteChangesNothing :
    Memory.wf greenSlot.fb ∧ (∃ t, exec (.config 1) greenSlot = .next t) ∧
    (∃ t, exec (.clear ⟨1, 2, 3⟩) greenSlot = .next t) ∧ ∃ t, exec (.setpx 2 ⟨1, 2, 3⟩) greenSlot = .next t :=
  ⟨by decide, ⟨_, rfl⟩, ⟨_, rfl⟩, _, rfl⟩

/-- CLEAR beside the last byte before the slots and the first byte after them. -/
theorem witness_OnlyConfigWritesResetRegions :
    (∀ n, Instr.clear ⟨255, 0, 0⟩ ≠ .config n) ∧ (∃ t, exec (.clear ⟨255, 0, 0⟩) (strip 1) = .next t) ∧
    (95 < 96 ∨ 96 + 24 * (strip 1).cfgN.toNat ≤ 95) ∧ (120 < 96 ∨ 96 + 24 * (strip 1).cfgN.toNat ≤ 120) :=
  ⟨by simp, ⟨_, rfl⟩, by decide, by decide⟩

theorem witness_PureCommandsKeepState :
    (∃ t, exec (.encpx ⟨1, 2, 3⟩) fresh = .next t) ∧ (∀ a, Instr.encpx ⟨1, 2, 3⟩ ≠ .rdbyte a) ∧ (strip 3).hw = fresh.hw ∧
    ∃ t, exec (.rdbyte 0) fresh = .next t :=
  ⟨⟨_, rfl⟩, by simp, rfl, _, rfl⟩

/-- Right after a CONFIG of one pixel: the slot is not encoded black but all ZERO. -/
theorem strip_one_shows : (strip 1).Shows [none] := ⟨rfl, by decide +kernel⟩

theorem witness_CommandsRefineStrip :
    fresh.Framebuffer none ∧ (∃ t, exec (.config 16) fresh = .next t) ∧
    (strip 1).Framebuffer (some [none]) ∧ ∃ t, exec (.setpx 0 ⟨1, 2, 3⟩) (strip 1) = .next t :=
  ⟨rfl, ⟨_, rfl⟩, ⟨rfl, strip_one_shows⟩, _, rfl⟩

/-- The first and the last byte of a frame. -/
theorem witness_AcceptedByteIsEmitted : ∀ p ∈ [0, 575],
    (streaming 16 p [.answer .accept]).phase = .stream ∧
    (streaming 16 p [.answer .accept]).pixels ≤ (streaming 16 p [.answer .accept]).hw.nMax ∧
    (streaming 16 p [.answer .accept]).pos < 24 * (8 + (streaming 16 p [.answer .accept]).cfgN.toNat) ∧
    (streaming 16 p [.answer .accept]).turns = .answer .accept :: [] := by decide

theorem witness_TransportFailureChangesOnlyPhase : ∀ p ∈ [0, 576],
    (streaming 16 p [.answer (.fail 7#64)]).phase = .stream ∧
    (streaming 16 p [.answer (.fail 7#64)]).turns = .answer (.fail 7#64) :: [] := by decide

theorem witness_CompletionEndsFrame :
    (streaming 16 576 [.answer .done]).phase = .stream ∧
    (streaming 16 576 [.answer .done]).pos = 24 * (8 + (streaming 16 576 [.answer .done]).cfgN.toNat) ∧
    (streaming 16 576 [.answer .done]).turns = .answer .done :: [] := by decide

theorem witness_SilentTransportHoldsStream :
    (streaming 1 0 [.offer 0 5#64, .grant 0]).phase = .stream ∧
    ∀ t ∈ (streaming 1 0 [.offer 0 5#64, .grant 0]).turns, (∃ h w, t = .offer h w) ∨ (∃ h, t = .grant h) := by
  simp [streaming]

/-- Turns of a frame of 216 bytes, with a host that offers `SETPX 0, #FFFFFF` and the port granted in the middle, and once
more before TRANSPORT's last answer (95_test_vectors.md T8). -/
def contended (k : Nat) : List Turn :=
  .answer .accept :: .offer 1 0x22FFFFFF00000000#64 :: .grant 1 :: (List.replicate k (.answer .accept) ++ [.grant 1])

theorem keepsFrame_replicate (k : Nat) : ∀ t ∈ List.replicate k (Turn.answer .accept), t.KeepsFrame :=
  fun _ ht => .inl (List.mem_replicate.1 ht).2

theorem contended_keepsFrame (k : Nat) : ∀ t ∈ contended k, t.KeepsFrame := by
  intro t ht
  simp only [contended, List.mem_cons, List.mem_append, List.not_mem_nil, or_false] at ht
  rcases ht with rfl | rfl | rfl | ht | rfl
  · exact .inl rfl
  · exact .inr (.inl ⟨_, _, rfl⟩)
  · exact .inr (.inr ⟨_, rfl⟩)
  · exact keepsFrame_replicate k t ht
  · exact .inr (.inr ⟨_, rfl⟩)

theorem contended_count (k : Nat) : (contended k).count (.answer .accept) = k + 1 := by
  simp [contended]

/-- With no other agent, and with hosts that offer and ask in the meantime. -/
theorem witness_WholeFrameIsSnapshot :
    (let s := streaming 1 0 (List.replicate 216 (.answer .accept) ++ [.answer .done])
     s.phase = .stream ∧ s.pos = 0 ∧ s.pixels ≤ s.hw.nMax ∧
      (∀ t ∈ List.replicate 216 (Turn.answer .accept), t.KeepsFrame) ∧
      (List.replicate 216 (Turn.answer .accept)).count (.answer .accept) = s.bufLen) ∧
    (let s := streaming 1 0 (contended 215 ++ [.answer .done])
     s.phase = .stream ∧ s.pos = 0 ∧ s.pixels ≤ s.hw.nMax ∧ (∀ t ∈ contended 215, t.KeepsFrame) ∧
      (contended 215).count (.answer .accept) = s.bufLen ∧ offersIn (contended 215) = [⟨1, 0x22FFFFFF00000000#64⟩]) :=
  ⟨⟨rfl, rfl, by decide, keepsFrame_replicate 216, List.count_replicate_self⟩,
   rfl, rfl, by decide, contended_keepsFrame 215, contended_count 215, rfl⟩

/-- A failure at the first byte, one after the last, and one in a frame during which a host offers a command. -/
theorem witness_FailedFrameIsPrefix : ∀ during ∈ [[], List.replicate 216 (Turn.answer .accept), contended 4],
    let s := streaming 1 0 (during ++ [.answer (.fail 7#64)])
    s.phase = .stream ∧ s.pos = 0 ∧ s.pixels ≤ s.hw.nMax ∧ during.count (.answer .accept) ≤ s.bufLen ∧
      (∀ t ∈ during, t.KeepsFrame) := by
  intro during hd
  refine ⟨rfl, rfl, show 1 ≤ 16 by decide, ?_, ?_⟩
  · show during.count (.answer .accept) ≤ 216
    simp only [List.mem_cons, List.not_mem_nil, or_false] at hd
    rcases hd with rfl | rfl | rfl
    · exact Nat.zero_le _
    · rw [List.count_replicate_self]
    · rw [contended_count]; decide
  · simp only [List.mem_cons, List.not_mem_nil, or_false] at hd
    rcases hd with rfl | rfl | rfl
    · simp
    · exact keepsFrame_replicate 216
    · exact contended_keepsFrame 4

theorem witness_StreamNeverWritesBuffer :
    (streaming 1 0 [.answer .accept]).phase = .stream ∧
    (∀ g, (streaming 1 0 [.answer .accept]).turns.head? ≠ some (.reset g)) ∧
    ∃ t, step (streaming 1 0 [.answer .accept]) = .next t :=
  ⟨rfl, by simp [streaming], _, rfl⟩

/-- A reset in the middle of a frame, and contents with a byte at the last offset FB has. -/
theorem witness_ResetAtAnyTime :
    (streaming 1 7 [.reset [(0, 5#8)]]).turns = .reset [(0, 5#8)] :: [] ∧
    Memory.wf [(575, 5#8)] ∧ ∀ cell ∈ [(575, 5#8)], cell.1 < (streaming 1 7 []).hw.fbSize := by decide

theorem witness_ParametersNeverChange : ∃ t, step (streaming 1 7 [.reset []]) = .next t := ⟨_, rfl⟩

/-- A CONFIG that succeeds, and a reset. -/
theorem witness_ConfiguredOnlyByConfig :
    (∃ t, step (offering 0x2000000000000010#64) = .next t ∧ (offering 0x2000000000000010#64).cfgValid = false ∧
      t.cfgValid = true) ∧
    ∃ t, step (streaming 1 7 [.reset []]) = .next t ∧ (streaming 1 7 [.reset []]).cfgValid = true ∧ t.cfgValid = false :=
  ⟨⟨_, rfl, rfl, rfl⟩, _, rfl, rfl, rfl⟩

/-- The invariant holds in a configured state outside any frame. -/
theorem strip_one_inv : (strip 1).Inv where
  hw_valid := by decide
  cfg_range := by decide
  fb_wf := by decide
  fb_inside := by decide
  fb_shows := fun _ => ⟨_, strip_one_shows⟩
  stream_configured := by decide
  stream_pos := by decide
  stream_frame := by decide
  port_phase := by decide

/-- The invariant holds in the middle of a frame. -/
theorem streaming_one_inv (ts : List Turn) : (streaming 1 0 ts).Inv where
  hw_valid := show hw.Valid by decide
  cfg_range := fun _ => ⟨show 1 ≤ 1 by decide, show 1 ≤ 16 by decide⟩
  fb_wf := show Memory.wf [] by decide
  fb_inside := by simp [streaming, strip, fresh, State.reset]
  fb_shows := fun _ => ⟨_, strip_one_shows⟩
  stream_configured := fun _ => rfl
  stream_pos := fun _ => show 0 ≤ 216 by decide
  stream_frame := fun _ => rfl
  port_phase := rfl

theorem witness_StepKeepsInvariant :
    (streaming 1 0 [.answer .accept]).Inv ∧ ∃ t, step (streaming 1 0 [.answer .accept]) = .next t :=
  ⟨streaming_one_inv _, _, rfl⟩

theorem witness_StepNeverStops : (strip 1).Inv := strip_one_inv

/-- Two states that differ in a byte beyond BUFLEN. -/
theorem witness_DeadBytesAreUnobservable :
    (strip 1).Inv ∧ (strip 1).SameLive { strip 1 with fb := [(216, 9#8)] } ∧ ∃ t, step (strip 1) = .next t :=
  ⟨strip_one_inv, ⟨rfl, fun _ a ha => by
    have : (strip 1).bufLen = 216 := rfl
    have hne : ¬ 216 = a := by omega
    simp [strip, fresh, State.reset, readByte, hne]⟩, _, rfl⟩

theorem witness_ObservationIsNeverRead : ∃ t, step (streaming 1 0 [.answer .accept]) = .next t := ⟨_, rfl⟩

end Sys2Proof.Tests
end

section
/-!
PROOFS. The rules of the state (10_state.md R33 to R47). First what a write does to a strip, then the part of the
invariant that speaks of the framebuffer alone, then the invariant under a command, an answer and a step.
-/
namespace Sys2Proof.Machine

/-! ### Writes of whole slots -/

/-- A write in the middle of a block replaces that part of it and nothing else. -/
theorem memRead_memWrite_middle {m : List Host.Cell} {a n x : Nat} {pre old post bs : List Byte}
    (h : memRead m a n = pre ++ old ++ post) (hl : bs.length = old.length) (hx : x = a + pre.length) :
    memRead (memWrite m x bs) a n = pre ++ bs ++ post := by
  subst hx
  have hn : n = pre.length + old.length + post.length := by
    simpa [Nat.add_assoc] using congrArg List.length h
  apply List.ext_getElem?
  intro j
  have hj := congrArg (fun l => l[j]?) h
  simp only [getElem?_memRead] at hj ⊢
  rw [readByte_memWrite]
  by_cases hin : a + pre.length ≤ a + j ∧ a + j < a + pre.length + bs.length
  · rw [if_pos hin, if_pos (by omega), List.append_assoc, List.getElem?_append_right (by omega),
      List.getElem?_append_left (by omega), show a + j - (a + pre.length) = j - pre.length by omega,
      List.getD_eq_getElem?_getD, List.getElem?_eq_getElem (by omega), Option.getD_some]
  · rw [if_neg hin, hj]
    by_cases hlo : j < pre.length
    · simp only [List.append_assoc, List.getElem?_append_left hlo]
    · rw [List.getElem?_append_right (by simp only [List.length_append]; omega),
        List.getElem?_append_right (by simp only [List.length_append]; omega)]
      simp only [List.length_append, hl]

/-- Writing the slots `new` over the slots `old` of a strip shows the strip with `new` in their place (R62). -/
theorem shows_memWrite_slots {s : State} {before old after new : Strip} (h : s.Shows (before ++ old ++ after))
    (hl : new.length = old.length) :
    State.Shows { s with fb := memWrite s.fb (slotOffset before.length) (new.flatMap (slotBytes s.hw)) }
      (before ++ new ++ after) := by
  obtain ⟨hlen, hread⟩ := h
  simp only [List.length_append] at hlen
  refine ⟨show _ = s.pixels by simpa only [List.length_append, hl] using hlen, ?_⟩
  have hsplit : ∀ mid : Strip, stripBytes s.hw (before ++ mid ++ after) =
      (List.replicate Config.resetLen Config.symZero ++ before.flatMap (slotBytes s.hw)) ++
        mid.flatMap (slotBytes s.hw) ++
        (after.flatMap (slotBytes s.hw) ++ List.replicate Config.resetLen Config.symZero) := fun mid => by
    simp [stripBytes]
  rw [hsplit] at hread
  refine (memRead_memWrite_middle hread ?_ ?_).trans (hsplit new).symm
  · simp only [length_flatMap_slotBytes, hl]
  · simp only [slotOffset_eq, List.length_append, List.length_replicate, length_flatMap_slotBytes, Nat.zero_add]

/-- SETPX and SETPXF write the slot of one pixel (R183, R184). -/
theorem shows_memWrite_pixel {s : State} {ps : Strip} {i : Nat} (h : s.Shows ps) (hi : i < s.pixels) (c : Rgb) :
    State.Shows { s with fb := memWrite s.fb (slotOffset i) (encodePixel s.hw c) } (ps.set i (some c)) := by
  have hi' : i < ps.length := h.1 ▸ hi
  have hsplit : ps = ps.take i ++ [ps[i]] ++ ps.drop (i + 1) := by simp
  rw [hsplit] at h
  have hw := shows_memWrite_slots (new := [some c]) h rfl
  rw [List.length_take_of_le (by omega)] at hw
  rw [List.set_eq_take_append_cons_drop, if_pos hi']
  simpa [slotBytes] using hw

/-- CLEAR writes every slot (R182). -/
theorem shows_memWrite_clear {s : State} {ps : Strip} (h : s.Shows ps) (c : Rgb) :
    State.Shows { s with fb := memWrite s.fb (slotOffset 0) (clearBytes s.hw s.pixels c) }
      (List.replicate s.pixels (some c)) := by
  have hw := shows_memWrite_slots (before := []) (after := []) (old := ps) (new := List.replicate s.pixels (some c))
    (by simpa using h) (by simp [h.1])
  rw [← clearBytes_eq] at hw
  simpa using hw

/-- The slots no command has written since the last CONFIG are all ZERO (R45). -/
theorem flatMap_slotBytes_none (hw : Config) (n : Nat) :
    (List.replicate n none).flatMap (slotBytes hw) = List.replicate (24 * n) 0#8 := by
  simp [List.flatMap_replicate, slotBytes, Nat.mul_comm]

/-- CONFIG leaves a strip with no pixel written (R181). -/
theorem configured_shows (s : State) (n : Count) : (s.configured n).Shows (List.replicate n.toNat none) := by
  rw [shows_iff]
  have hsize := bufferSize_eq n.toNat
  refine ⟨by simp, fun a ha => ?_, fun k hk => ?_, fun k hk => ?_⟩
  · rw [State.configured_fb, readByte_memZero, if_pos (by omega)]
  · rw [State.configured_pixels] at hk
    rw [State.configured_fb, readByte_memZero, if_pos (by omega), flatMap_slotBytes_none,
      List.getD_replicate _ hk]
  · rw [State.configured_pixels, State.configured_fb, readByte_memZero, if_pos (by omega)]

/-! ### The invariant of the framebuffer -/

/-- The part of `State.Inv` that speaks of the parameters, the configuration and FB (R34, R36, R45). Unlike the whole
invariant it also holds between the acceptance of a command and its end. -/
structure State.BufferInv (s : State) : Prop where
  hw_valid : s.hw.Valid
  cfg_range : s.cfgValid = true → 1 ≤ s.pixels ∧ s.pixels ≤ s.hw.nMax
  fb_wf : Memory.wf s.fb
  fb_inside : ∀ c ∈ s.fb, c.1 < s.hw.fbSize
  fb_shows : s.cfgValid = true → ∃ ps, s.Shows ps

theorem State.Inv.bufferInv {s : State} (h : s.Inv) : s.BufferInv := { h with }

theorem State.BufferInv.of_eq {s t : State} (h : s.BufferInv) (hhw : t.hw = s.hw) (hv : t.cfgValid = s.cfgValid)
    (hn : t.cfgN = s.cfgN) (hfb : t.fb = s.fb) : t.BufferInv := by
  cases s
  cases t
  cases hhw
  cases hv
  cases hn
  cases hfb
  exact { h with }

/-- A write inside FB keeps it, when the buffer shows a strip afterwards. -/
theorem State.BufferInv.write {s : State} (h : s.BufferInv) {a : Nat} {bs : List Byte} {ps : Strip}
    (ho : s.hasOffsets a bs.length = true) (hs : State.Shows { s with fb := memWrite s.fb a bs } ps) :
    State.BufferInv { s with fb := memWrite s.fb a bs } where
  hw_valid := h.hw_valid
  cfg_range := h.cfg_range
  fb_wf := memWrite_wf h.fb_wf a bs
  fb_inside := memWrite_inside h.fb_inside (hasOffsets_iff.1 ho)
  fb_shows := fun _ => ⟨ps, hs⟩

theorem State.BufferInv.writePixel {s : State} (h : s.BufferInv) (hv : s.cfgValid = true) {i : Nat} (hi : i < s.pixels)
    (ho : s.hasOffsets (slotOffset i) 24 = true) (c : Rgb) :
    State.BufferInv { s with fb := memWrite s.fb (slotOffset i) (encodePixel s.hw c) } := by
  obtain ⟨ps, hs⟩ := h.fb_shows hv
  exact h.write ho (shows_memWrite_pixel hs hi c)

theorem State.BufferInv.writeClear {s : State} (h : s.BufferInv) (hv : s.cfgValid = true)
    (ho : s.hasOffsets (slotOffset 0) (24 * s.pixels) = true) (c : Rgb) :
    State.BufferInv { s with fb := memWrite s.fb (slotOffset 0) (clearBytes s.hw s.pixels c) } := by
  obtain ⟨ps, hs⟩ := h.fb_shows hv
  exact h.write (by rwa [length_clearBytes]) (shows_memWrite_clear hs c)

theorem State.BufferInv.configured {s : State} (h : s.BufferInv) {n : Count} (h1 : 1 ≤ n.toNat)
    (h2 : n.toNat ≤ s.hw.nMax) : (s.configured n).BufferInv where
  hw_valid := h.hw_valid
  cfg_range := fun _ => ⟨h1, h2⟩
  fb_wf := memZero_wf h.fb_wf _ _
  fb_inside := memZero_inside h.fb_inside _ _
  fb_shows := fun _ => ⟨_, configured_shows s n⟩

/-- After reset there is no framebuffer to speak of, and FB holds any bytes in canonical form (R46). -/
theorem State.BufferInv.of_unconfigured {s : State} (hhw : s.hw.Valid) (hv : s.cfgValid = false) (hm : Memory.wf s.fb)
    (hi : ∀ c ∈ s.fb, c.1 < s.hw.fbSize) : s.BufferInv where
  hw_valid := hhw
  cfg_range := by simp [hv]
  fb_wf := hm
  fb_inside := hi
  fb_shows := by simp [hv]

/-- Every command keeps the invariant of the framebuffer. -/
theorem exec_bufferInv {i : Instr} {s t : State} (hs : s.BufferInv) (h : exec i s = .next t) : t.BufferInv := by
  rcases exec_cases h with ⟨st, b, rfl⟩ | ⟨n, -, h1, h2, rfl⟩ | ⟨c, -, hv, ho, rfl⟩ | ⟨n, c, -, hv, hn, ho, rfl⟩ |
    ⟨n, c, -, hv, hn, ho, rfl⟩ | ⟨-, -, rfl⟩
  · exact hs.of_eq rfl rfl rfl rfl
  · exact (hs.configured h1 h2).of_eq rfl rfl rfl rfl
  · exact (hs.writeClear hv ho c).of_eq rfl rfl rfl rfl
  · exact (hs.writePixel hv hn ho c).of_eq rfl rfl rfl rfl
  · exact (hs.writePixel hv hn ho c).of_eq rfl rfl rfl rfl
  · exact hs.of_eq rfl rfl rfl rfl

/-! ### The invariant of every reachable state -/

/-- While PHASE = IDLE the rest of the invariant is that no command is under way. -/
theorem State.BufferInv.inv_of_idle {s : State} (h : s.BufferInv) (hp : s.phase = .idle)
    (ht : portPhase s.trace = some .idle) : s.Inv :=
  { h with
    stream_configured := by simp [hp]
    stream_pos := by simp [hp]
    stream_frame := by simp [hp]
    port_phase := by rw [ht, hp] }

/-- A command answers at once and leaves PHASE as it is, or it starts the stream of a framebuffer and answers later
(R98, R195). -/
theorem exec_responds_or_starts {i : Instr} {s t : State} (h : exec i s = .next t) :
    (t.phase = s.phase ∧ ∃ st beats, t.trace = .respond s.client st beats :: s.trace) ∨
    (t.phase = .stream ∧ t.pos = 0 ∧ t.cfgValid = true ∧ t.trace = s.trace) := by
  rcases exec_cases h with ⟨st, b, rfl⟩ | ⟨n, -, -, -, rfl⟩ | ⟨c, -, -, -, rfl⟩ | ⟨n, c, -, -, -, -, rfl⟩ |
    ⟨n, c, -, hv, -, -, rfl⟩ | ⟨-, hv, rfl⟩
  · exact .inl ⟨rfl, st, b, rfl⟩
  · exact .inl ⟨rfl, _, _, rfl⟩
  · exact .inl ⟨rfl, _, _, rfl⟩
  · exact .inl ⟨rfl, _, _, rfl⟩
  · exact .inr ⟨rfl, rfl, hv, rfl⟩
  · exact .inr ⟨rfl, rfl, hv, rfl⟩

section
variable {s t : State}

theorem State.Inv.withTurns (h : s.Inv) (ts : List Turn) : State.Inv { s with turns := ts } := { h with }

theorem State.Inv.offered (h : s.Inv) (o : Offer) : (s.offered o).Inv := { h with }

theorem State.Inv.doReset (h : s.Inv) (g : List Host.Cell) : (s.doReset g).Inv := by
  obtain ⟨hwf, hin⟩ := memOfCells_wf_inside s.hw.fbSize g
  exact State.BufferInv.inv_of_idle (.of_unconfigured h.hw_valid rfl hwf hin) rfl (by simp [portPhase, h.port_phase])

theorem State.Inv.endStream (h : s.Inv) (hp : s.phase = .stream) (st : Status) (beats : List Word) :
    (s.endStream st beats).Inv :=
  State.BufferInv.inv_of_idle (h.bufferInv.of_eq rfl rfl rfl rfl) rfl (by simp [portPhase, h.port_phase, hp])

/-- TRANSPORT accepts the byte at POS, so the frame so far grows by that byte (R193, R196). -/
theorem State.Inv.emitted (h : s.Inv) (hp : s.phase = .stream) (hl : s.pos < s.bufLen) :
    (s.emitted (readByte s.fb s.pos)).Inv :=
  { h with
    stream_pos := fun _ => hl
    stream_frame := fun _ => by
      simp only [State.emitted_trace, frameSoFar, h.stream_frame hp, State.emitted_fb, State.emitted_pos, memRead_succ,
        Nat.zero_add]
    port_phase := by simp [portPhase, h.port_phase, hp] }

theorem answered_inv {a : Answer} (hs : s.Inv) (h : s.answered a = .next t) : t.Inv := by
  rcases answered_cases h with rfl | ⟨-, hp, hl, -, rfl⟩ | ⟨-, hp, -, rfl⟩ | ⟨_, -, hp, rfl⟩
  · exact hs
  · exact hs.emitted hp hl
  · exact hs.endStream hp _ _
  · exact hs.endStream hp _ _

/-- The state in which an accepted command runs: the framebuffer's invariant holds, and that command is under way. -/
theorem State.Inv.accepts {u : State} {o : Offer} (hs : s.Inv) (ha : s.Accepts o u) :
    u.BufferInv ∧ u.phase = .idle ∧ frameSoFar u.trace = [] ∧ portPhase u.trace = some .stream := by
  obtain ⟨hp, rest, rfl⟩ := accepts_state ha
  exact ⟨hs.bufferInv.of_eq rfl rfl rfl rfl, hp, rfl, by simp [portPhase, hs.port_phase, hp]⟩

/-- A command run right after its acceptance leads back to the invariant, whether it answers or starts a stream. -/
theorem exec_inv {i : Instr} (hb : s.BufferInv) (hp : s.phase = .idle) (hf : frameSoFar s.trace = [])
    (hport : portPhase s.trace = some .stream) (h : exec i s = .next t) : t.Inv := by
  have hbt := exec_bufferInv hb h
  rcases exec_responds_or_starts h with ⟨hpt, st, beats, htr⟩ | ⟨hpt, hpos, hv, htr⟩
  · exact hbt.inv_of_idle (hpt.trans hp) (by simp [htr, portPhase, hport])
  · exact { hbt with
      stream_configured := fun _ => hv
      stream_pos := fun _ => by simp [hpos]
      stream_frame := fun _ => by rw [htr, hf, hpos]; rfl
      port_phase := by rw [htr, hport, hpt] }

theorem step_inv (hs : s.Inv) (h : step s = .next t) : t.Inv := by
  have hturn := hs.withTurns s.turns.tail
  rcases step_cases h with rfl | ⟨o, -, rfl⟩ | ⟨o, u, ha, hrun⟩ | ⟨a, -, hans⟩ | ⟨g, -, rfl⟩
  · exact hturn
  · exact hturn.offered o
  · obtain ⟨hb, hp, hf, hport⟩ := hs.accepts ha
    rcases hrun with ⟨i, -, hi⟩ | ⟨e, -, rfl⟩
    · exact exec_inv hb hp hf hport hi
    · exact State.BufferInv.inv_of_idle (hb.of_eq rfl rfl rfl rfl) hp (by simp [portPhase, hport])
  · exact answered_inv hturn hans
  · exact hturn.doReset g

end

/-- Settles O56: each of the five things a step can do keeps the invariant; a command keeps the framebuffer's part of it
and then answers or starts a stream. -/
theorem stepKeepsInvariant : Obligations.StepKeepsInvariant :=
  fun _ _ hs h => step_inv hs h

/-! ### The state after reset -/

theorem chip_symLow_toNat : Config.chip.symLow.toNat = Config.symLowIndex.val + 1 := by
  have hl := Config.symLowIndex.isLt
  simp only [Config.chip, BitVec.toNat_ofNat]
  omega

theorem chip_symHigh_toNat : Config.chip.symHigh.toNat =
    if Config.symHighIndex.val < Config.symLowIndex.val then Config.symHighIndex.val + 1
    else Config.symHighIndex.val + 2 := by
  have hh := Config.symHighIndex.isLt
  simp only [Config.chip, BitVec.toNat_ofNat]
  split <;> omega

/-- The open parameters of the chip are ones the spec admits (00_scope.md R7, R8). -/
theorem chip_valid : Config.chip.Valid := by
  have hn : Config.chip.nMax = Config.nMaxIndex.val + 1 := rfl
  have hlt := Config.nMaxIndex.isLt
  refine ⟨by omega, by omega, ?_, ?_, ?_⟩ <;> apply ne_of_apply_ne BitVec.toNat
  · rw [chip_symLow_toNat, chip_symHigh_toNat]
    split <;> omega
  · rw [chip_symLow_toNat]
    exact Nat.succ_ne_zero _
  · rw [chip_symHigh_toNat]
    split <;> exact Nat.succ_ne_zero _

/-- Settles O55: no framebuffer exists and no command is under way. -/
theorem resetMeetsInvariant : Obligations.ResetMeetsInvariant :=
  (State.BufferInv.of_unconfigured chip_valid rfl ⟨List.Pairwise.nil, by simp [State.reset]⟩
    (by simp [State.reset])).inv_of_idle rfl rfl

/-- Settles O51: the reset values are those `State.reset` is defined with. -/
theorem resetValuesOfTable : Obligations.ResetValuesOfTable := ⟨rfl, rfl, rfl, rfl⟩

end Sys2Proof.Machine
end

section
/-!
PROOFS. What a step takes from the hosts and what it leaves of the configuration (10_state.md R33, R37, R40;
70_reset_and_hazards.md R272, R278).
-/
namespace Sys2Proof.Machine

/-! ### The command port -/

/-- Settles O5: `step_of_accepts` at a word that decodes. -/
theorem stepRunsDecodedCommand : Obligations.StepRunsDecodedCommand := by
  intro s u o i ha hd
  rw [step_of_accepts ha, hd]

/-- Settles O8: CORE's own step and an arbitration turn both look at PHASE first, and an offer only joins the queue. -/
theorem streamAcceptsNoCommand : Obligations.StreamAcceptsNoCommand := by
  intro s hp
  refine ⟨fun ht => ?_, fun h ts ht => ?_, fun h w ts ht => ?_⟩
  · simp only [step, ht, State.coreStep, hp]
  · simp only [step, ht, State.takeTurn, State.granted, hp]
  · simp only [step, ht, State.takeTurn, State.offered]

section
variable {s t u : State} {o : Offer}

/-- What the run of an accepted command leaves of the acceptance state, whether its word decodes or not. -/
theorem run_keeps
    (h : (∃ i, decode o.word = .command i ∧ exec i u = .next t) ∨
      (∃ e, decode o.word = .illegal e ∧ t = u.raise .illegalCommand)) :
    t.hw = u.hw ∧ t.waiting = u.waiting := by
  rcases h with ⟨i, -, hi⟩ | ⟨e, -, rfl⟩
  · obtain ⟨hhw, hw, -, -⟩ := exec_keeps hi
    exact ⟨hhw, hw⟩
  · exact ⟨rfl, rfl⟩

/-- Acceptance changes nothing of the chip's own state (R37). -/
theorem accepts_keeps (h : s.Accepts o u) :
    u.hw = s.hw ∧ u.cfgValid = s.cfgValid ∧ u.cfgN = s.cfgN ∧ u.fb = s.fb ∧ u.pos = s.pos := by
  obtain ⟨-, rest, rfl⟩ := accepts_state h
  exact ⟨rfl, rfl, rfl, rfl, rfl⟩

end

/-- Settles O10: of the five things a step can do, TRANSPORT's answer and the passing of a turn keep the queue, and reset
is excluded. -/
theorem offersWaitUntilAccepted : Obligations.OffersWaitUntilAccepted := by
  intro s t h hreset
  rcases step_cases h with rfl | ⟨o, ho, rfl⟩ | ⟨o, u, ha, hrun⟩ | ⟨a, -, hans⟩ | ⟨g, hg, -⟩
  · exact .inl rfl
  · exact .inr (.inl ⟨o, ho, rfl⟩)
  · exact .inr (.inr ⟨o, u, ha, (run_keeps hrun).2⟩)
  · obtain ⟨-, -, -, -, hw, -⟩ := answered_keeps hans
    exact .inl hw
  · exact absurd hg (hreset g)

/-- Settles O53: neither an offer, a command, an answer nor reset writes the parameters. -/
theorem parametersNeverChange : Obligations.ParametersNeverChange := by
  intro s t h
  rcases step_cases h with rfl | ⟨o, -, rfl⟩ | ⟨o, u, ha, hrun⟩ | ⟨a, -, hans⟩ | ⟨g, -, rfl⟩
  · rfl
  · rfl
  · exact (run_keeps hrun).1.trans (accepts_keeps ha).1
  · exact (answered_keeps hans).1
  · rfl

/-! ### CFG_VALID -/

/-- Only a CONFIG that succeeds writes CFG_VALID, and it writes 1 (R33, R181). -/
theorem exec_cfgValid {i : Instr} {s t : State} (h : exec i s = .next t) :
    t.cfgValid = s.cfgValid ∨
    (t.cfgValid = true ∧ ∃ n, i = .config n ∧ 1 ≤ n.toNat ∧ n.toNat ≤ s.hw.nMax) := by
  rcases exec_cases h with ⟨st, b, rfl⟩ | ⟨n, hi, h1, h2, rfl⟩ | ⟨c, -, -, -, rfl⟩ | ⟨n, c, -, -, -, -, rfl⟩ |
    ⟨n, c, -, -, -, -, rfl⟩ | ⟨-, -, rfl⟩
  · exact .inl rfl
  · exact .inr ⟨rfl, n, hi, h1, h2⟩
  · exact .inl rfl
  · exact .inl rfl
  · exact .inl rfl
  · exact .inl rfl

/-- The two ways in which a step can write CFG_VALID: a CONFIG that succeeds, and reset. -/
theorem step_cfgValid {s t : State} (h : step s = .next t) :
    t.cfgValid = s.cfgValid ∨
    (t.cfgValid = true ∧ ∃ o u n, s.Accepts o u ∧ decode o.word = .command (.config n) ∧
      1 ≤ n.toNat ∧ n.toNat ≤ s.hw.nMax) ∨
    (t.cfgValid = false ∧ ∃ g, s.turns.head? = some (.reset g)) := by
  rcases step_cases h with rfl | ⟨o, -, rfl⟩ | ⟨o, u, ha, hrun⟩ | ⟨a, -, hans⟩ | ⟨g, hg, rfl⟩
  · exact .inl rfl
  · exact .inl rfl
  · obtain ⟨hhw, hv, -, -, -⟩ := accepts_keeps ha
    rcases hrun with ⟨i, hd, hi⟩ | ⟨e, -, rfl⟩
    · rcases exec_cfgValid hi with hkeep | ⟨ht, n, rfl, h1, h2⟩
      · exact .inl (hkeep.trans hv)
      · exact .inr (.inl ⟨ht, o, u, n, ha, hd, h1, hhw ▸ h2⟩)
    · exact .inl hv
  · obtain ⟨-, -, -, hv, -, -⟩ := answered_keeps hans
    exact .inl hv
  · exact .inr (.inr ⟨rfl, g, hg⟩)

/-- Settles O54: a step that changes CFG_VALID is one of the two that write it. -/
theorem configuredOnlyByConfig : Obligations.ConfiguredOnlyByConfig := by
  intro s t h
  rcases step_cfgValid h with hkeep | ⟨ht, hconfig⟩ | ⟨ht, hreset⟩
  · exact ⟨fun hs ht => by simp [hkeep, hs] at ht, fun hs ht => by simp [hkeep, hs] at ht⟩
  · exact ⟨fun _ _ => hconfig, fun _ ht' => by simp [ht] at ht'⟩
  · exact ⟨fun _ ht' => by simp [ht] at ht', fun _ _ => hreset⟩

end Sys2Proof.Machine
end

section
/-!
PROOFS. What a step does not read (10_state.md R36, R47). Both noninterference statements are one simulation: a relation
between a state and a twin that differs from it in FB and the observation only, which every step keeps because the named
operations do.
-/
namespace Sys2Proof.Machine

/-- `s` with other framebuffer contents and another observation. -/
def State.twin (s : State) (m : List Host.Cell) (tr : List Event) : State := { s with fb := m, trace := tr }

/-- Whatever state `o` goes on in, `o'` goes on in a related twin of it. -/
def Follows (R : State → List Host.Cell → List Event → Prop) (o o' : Outcome) : Prop :=
  ∀ t, o = .next t → ∃ m tr, o' = .next (t.twin m tr) ∧ R t m tr

/-- What the simulation asks of a relation `R s m tr` between `s` and `s.twin m tr`: a byte that a command or the stream
can reach reads alike in both, and the operations that commands and turns are made of keep it. -/
structure KeptByOperations (R : State → List Host.Cell → List Event → Prop) : Prop where
  /-- RDBYTE reads the live buffer of a configured block, a stream that of its own frame (R185, R196) -/
  read {s : State} {m : List Host.Cell} {tr : List Event} {a : Nat} : R s m tr →
    s.cfgValid = true ∨ s.phase = .stream → a < s.bufLen → readByte m a = readByte s.fb a
  /-- POS and the fields outside the block may change, and both may observe the same new events -/
  update {s : State} {m : List Host.Cell} {tr : List Event} (p c : Nat) (ws : List Offer) (ts : List Turn)
    (es : List Event) : R s m tr →
      R { s with pos := p, client := c, waiting := ws, turns := ts, trace := es ++ s.trace } m (es ++ tr)
  idle {s : State} {m : List Host.Cell} {tr : List Event} : R s m tr → R { s with phase := .idle } m tr
  stream {s : State} {m : List Host.Cell} {tr : List Event} : R s m tr → s.cfgValid = true →
    R { s with phase := .stream } m tr
  config {s : State} {m : List Host.Cell} {tr : List Event} (n : Count) : R s m tr →
    R (s.configured n) (memZero m 0 (bufferSize n.toNat)) tr
  write {s : State} {m : List Host.Cell} {tr : List Event} (a : Nat) (bs : List Byte) : R s m tr →
    R { s with fb := memWrite s.fb a bs } (memWrite m a bs) tr
  reset {s : State} {m : List Host.Cell} {tr : List Event} (g : List Host.Cell) : R s m tr →
    R (s.doReset g) (memOfCells s.hw.fbSize g) (.reset :: tr)

section
variable {R : State → List Host.Cell → List Event → Prop} {s : State} {m : List Host.Cell} {tr : List Event}

/-! ### The shared operations -/

theorem follows_next {t : State} (h : R t m tr) : Follows R (.next t) (.next (t.twin m tr)) := by
  intro u hu
  cases hu
  exact ⟨m, tr, rfl, h⟩

theorem follows_readFB {a : Nat} {k k' : Byte → Outcome} (hb : readByte m a = readByte s.fb a)
    (hk : Follows R (k (readByte s.fb a)) (k' (readByte s.fb a))) :
    Follows R (s.readFB a k) ((s.twin m tr).readFB a k') := by
  intro t ht
  obtain ⟨ho, ht⟩ := readFB_eq_next.1 ht
  obtain ⟨m', tr', hnext, hr⟩ := hk t ht
  exact ⟨m', tr', readFB_eq_next.2 ⟨ho, show k' (readByte m a) = _ by rw [hb, hnext]⟩, hr⟩

theorem follows_writeFB {a : Nat} {bs : List Byte} {k k' : State → Outcome}
    (hk : Follows R (k { s with fb := memWrite s.fb a bs }) (k' (s.twin (memWrite m a bs) tr))) :
    Follows R (s.writeFB a bs k) ((s.twin m tr).writeFB a bs k') := by
  intro t ht
  obtain ⟨ho, ht⟩ := writeFB_eq_next.1 ht
  obtain ⟨m', tr', hnext, hr⟩ := hk t ht
  exact ⟨m', tr', writeFB_eq_next.2 ⟨ho, hnext⟩, hr⟩

namespace KeptByOperations

theorem withTurns (hR : KeptByOperations R) (h : R s m tr) (ts : List Turn) : R { s with turns := ts } m tr :=
  hR.update s.pos s.client s.waiting ts [] h

theorem respond_follows (hR : KeptByOperations R) (h : R s m tr) (st : Status) (beats : List Word) :
    Follows R (.next (s.respond st beats)) (.next ((s.twin m tr).respond st beats)) :=
  follows_next (hR.update s.pos s.client s.waiting s.turns [.respond s.client st beats] h)

theorem guarded_follows (hR : KeptByOperations R) (h : R s m tr) {st : Status} {k k' : Outcome}
    (hk : st = .ok → Follows R k k') : Follows R (s.guarded st k) ((s.twin m tr).guarded st k') := by
  by_cases hst : st = .ok
  · rw [guarded_of_ok hst, guarded_of_ok hst]
    exact hk hst
  · rw [guarded_of_ne hst, guarded_of_ne hst]
    exact hR.respond_follows h st []

theorem startStream_follows (hR : KeptByOperations R) (h : R s m tr) (hv : s.cfgValid = true) :
    Follows R (.next s.startStream) (.next (s.twin m tr).startStream) :=
  follows_next (hR.update 0 s.client s.waiting s.turns [] (hR.stream h hv))

theorem endStream_follows (hR : KeptByOperations R) (h : R s m tr) (st : Status) (beats : List Word) :
    Follows R (.next (s.endStream st beats)) (.next ((s.twin m tr).endStream st beats)) :=
  hR.respond_follows (hR.idle h) st beats

/-! ### Commands, turns and steps -/

/-- A command run in both goes the same way: its checks look at the configuration alone, and only RDBYTE reads FB. -/
theorem exec_follows (hR : KeptByOperations R) (h : R s m tr) (i : Instr) :
    Follows R (exec i s) (exec i (s.twin m tr)) := by
  cases i with
  | rgb2hsl c => exact hR.respond_follows h _ _
  | hsl2rgb v => exact hR.guarded_follows h fun _ => hR.respond_follows h _ _
  | applyl base lv => exact hR.respond_follows h _ _
  | encch v => exact hR.respond_follows h _ _
  | encpx c => exact hR.respond_follows h _ _
  | bufsz n => exact hR.respond_follows h _ _
  | config n =>
    have hst : (s.twin m tr).configStatus n = s.configStatus n := rfl
    simp only [exec, execConfig, hst]
    split
    · exact hR.respond_follows (hR.config n h) _ _
    · exact hR.respond_follows h _ _
  | clear c => exact hR.guarded_follows h fun _ => follows_writeFB (hR.respond_follows (hR.write _ _ h) _ _)
  | setpx n c => exact hR.guarded_follows h fun _ => follows_writeFB (hR.respond_follows (hR.write _ _ h) _ _)
  | setpxf n c =>
    refine hR.guarded_follows h fun hst => follows_writeFB (hR.startStream_follows (hR.write _ _ h) ?_)
    exact (pixelStatus_ok_iff.1 hst).1
  | rdbyte a =>
    refine hR.guarded_follows h fun hst => ?_
    obtain ⟨hv, ha⟩ := offsetStatus_ok_iff.1 hst
    exact follows_readFB (hR.read h (.inl hv) ha) (hR.respond_follows h _ _)
  | flush => exact hR.guarded_follows h fun hst => hR.startStream_follows h (bufferStatus_ok_iff.1 hst)

theorem runOffer_follows (hR : KeptByOperations R) (h : R s m tr) (o : Offer) (rest : List Offer) :
    Follows R (s.runOffer o rest) ((s.twin m tr).runOffer o rest) := by
  have hacc : R (s.accepted o rest) m (.accept o.host o.word :: tr) :=
    hR.update s.pos o.host rest s.turns [.accept o.host o.word] h
  unfold State.runOffer
  cases decode o.word with
  | command i => exact hR.exec_follows hacc i
  | illegal e => exact hR.respond_follows hacc _ _

/-- TRANSPORT accepts the same byte in both, for the stream is within the live buffer. -/
theorem answered_follows (hR : KeptByOperations R) (h : R s m tr) (a : Answer) :
    Follows R (s.answered a) ((s.twin m tr).answered a) := by
  have hp : (s.twin m tr).phase = s.phase := rfl
  have hl : ((s.twin m tr).pos < (s.twin m tr).bufLen) = (s.pos < s.bufLen) := rfl
  simp only [State.answered, hp, hl]
  cases hphase : s.phase with
  | idle => exact follows_next h
  | stream =>
    dsimp only
    split
    · next hlive =>
      cases a with
      | accept =>
        simp only [State.byteStep]
        refine follows_readFB (hR.read h (.inr hphase) hlive) ?_
        exact follows_next (hR.update (s.pos + 1) s.client s.waiting s.turns [.emit (readByte s.fb s.pos)] h)
      | done => exact follows_next h
      | fail terr => exact hR.endStream_follows h _ _
    · cases a with
      | accept => exact follows_next h
      | done => exact hR.endStream_follows h _ _
      | fail terr => exact hR.endStream_follows h _ _

theorem coreStep_follows (hR : KeptByOperations R) (h : R s m tr) : Follows R s.coreStep (s.twin m tr).coreStep := by
  have hp : (s.twin m tr).phase = s.phase := rfl
  have hw : (s.twin m tr).waiting = s.waiting := rfl
  simp only [State.coreStep, hp, hw]
  split
  · exact hR.runOffer_follows h _ _
  · exact follows_next h

theorem granted_follows (hR : KeptByOperations R) (h : R s m tr) (n : Nat) :
    Follows R (s.granted n) ((s.twin m tr).granted n) := by
  have hp : (s.twin m tr).phase = s.phase := rfl
  have hw : (s.twin m tr).waiting = s.waiting := rfl
  simp only [State.granted, hp, hw]
  split
  · exact hR.runOffer_follows h _ _
  · exact follows_next h

theorem takeTurn_follows (hR : KeptByOperations R) (h : R s m tr) (t : Turn) :
    Follows R (s.takeTurn t) ((s.twin m tr).takeTurn t) := by
  cases t with
  | offer n w => exact follows_next (hR.update s.pos s.client (s.waiting ++ [Offer.mk n w]) s.turns [] h)
  | grant n => exact hR.granted_follows h n
  | answer a => exact hR.answered_follows h a
  | reset g => exact follows_next (hR.reset g h)

/-- A relation that the operations keep is kept by every step. -/
theorem step_follows (hR : KeptByOperations R) (h : R s m tr) : Follows R (step s) (step (s.twin m tr)) := by
  have ht : (s.twin m tr).turns = s.turns := rfl
  simp only [step, ht]
  cases s.turns with
  | nil => exact hR.coreStep_follows h
  | cons t ts => exact hR.takeTurn_follows (hR.withTurns h ts) t

end KeptByOperations
end

/-! ### Bytes outside the live buffer -/

/-- The twin has the same observation and the same live bytes, and a stream has a live buffer to read. -/
structure LiveBytesAgree (s : State) (m : List Host.Cell) (tr : List Event) : Prop where
  trace : tr = s.trace
  live : s.cfgValid = true → ∀ a < s.bufLen, readByte s.fb a = readByte m a
  configured : s.phase = .stream → s.cfgValid = true

theorem sameLive_iff {s s' : State} : s.SameLive s' ↔
    ∃ m, s' = s.twin m s.trace ∧ (s.cfgValid = true → ∀ a < s.bufLen, readByte s.fb a = readByte m a) := by
  constructor
  · rintro ⟨hs, hl⟩
    exact ⟨s'.fb, hs, hl⟩
  · rintro ⟨m, rfl, hl⟩
    exact ⟨rfl, hl⟩

theorem liveBytesAgree_kept : KeptByOperations LiveBytesAgree where
  read h hv ha := (h.live (hv.elim id h.configured) _ ha).symm
  update p c ws ts es h := ⟨by rw [h.trace], h.live, h.configured⟩
  idle h := ⟨h.trace, h.live, by simp⟩
  stream h hv := ⟨h.trace, h.live, fun _ => hv⟩
  config n h := by
    refine ⟨h.trace, fun _ a ha => ?_, fun _ => rfl⟩
    have hin : 0 ≤ a ∧ a < 0 + bufferSize n.toNat := ⟨Nat.zero_le a, by simpa using ha⟩
    rw [State.configured_fb, readByte_memZero, readByte_memZero, if_pos hin, if_pos hin]
  write x bs h := by
    refine ⟨h.trace, fun hv a ha => ?_, h.configured⟩
    rw [readByte_memWrite, readByte_memWrite, h.live hv a ha]
  reset g h := ⟨by rw [h.trace]; rfl, by simp, by simp⟩

/-- Settles O58: agreement on the live bytes is kept by every step, since a stream has a framebuffer. -/
theorem deadBytesAreUnobservable : Obligations.DeadBytesAreUnobservable := by
  intro s s' t hinv hsame hstep
  obtain ⟨m, rfl, hlive⟩ := sameLive_iff.1 hsame
  obtain ⟨m', tr', hnext, hagree⟩ := liveBytesAgree_kept.step_follows ⟨rfl, hlive, hinv.stream_configured⟩ t hstep
  obtain rfl := hagree.trace
  exact ⟨_, hnext, sameLive_iff.2 ⟨m', rfl, hagree.live⟩⟩

/-! ### The observation -/

/-- The twin has the same FB, and both have observed the same events since the observations `old` and `old'`. -/
def SameEventsSince (old old' : List Event) (s : State) (m : List Host.Cell) (tr : List Event) : Prop :=
  m = s.fb ∧ ∃ new, s.trace = new ++ old ∧ tr = new ++ old'

theorem sameEventsSince_kept (old old' : List Event) : KeptByOperations (SameEventsSince old old') where
  read h _ _ := by rw [h.1]
  update p c ws ts es h := by
    obtain ⟨rfl, new, hs, rfl⟩ := h
    exact ⟨rfl, es ++ new, by simp [hs], by simp⟩
  idle h := h
  stream h _ := h
  config n h := by
    obtain ⟨rfl, hnew⟩ := h
    exact ⟨rfl, hnew⟩
  write a bs h := by
    obtain ⟨rfl, hnew⟩ := h
    exact ⟨rfl, hnew⟩
  reset g h := by
    obtain ⟨-, new, hs, rfl⟩ := h
    exact ⟨rfl, .reset :: new, by simp [hs], rfl⟩

/-- Settles O59: after any step both observations have grown by the same events. -/
theorem observationIsNeverRead : Obligations.ObservationIsNeverRead := by
  intro s t tr hstep
  have hstart : SameEventsSince s.trace tr s s.fb tr := ⟨rfl, [], rfl, rfl⟩
  obtain ⟨_, _, hnext, rfl, new, hs, rfl⟩ := (sameEventsSince_kept s.trace tr).step_follows hstart t hstep
  exact ⟨new, hs, hnext⟩

end Sys2Proof.Machine
end

section
/-!
PROOFS. The rules of the framebuffer memory and of the order of issue (20_memory.md R63, R72, R73, R76).
-/
namespace Sys2Proof.Machine

/-! ### The order of issue -/

/-- Arbitration finds the first waiting command of the host it picked, and erases exactly that one. -/
theorem takeOffer_eq_find?_eraseP (h : Nat) (ws : List Offer) :
    takeOffer h ws = (ws.find? (·.host = h)).map (fun o => (o, ws.eraseP (·.host = h))) := by
  induction ws with
  | nil => rfl
  | cons w ws ih => by_cases hw : w.host = h <;> simp [takeOffer, hw, ih, Function.comp_def]

/-- Settles O9: the first command of that host splits the queue, and erasing it joins the two parts again. -/
theorem arbitrationKeepsIssueOrder : Obligations.ArbitrationKeepsIssueOrder := by
  intro h ws
  rw [takeOffer_eq_find?_eraseP]
  refine ⟨by simp, fun _ _ htake => ?_⟩
  obtain ⟨o, hfind, hsplit⟩ := Option.map_eq_some_iff.1 htake
  obtain ⟨rfl, rfl⟩ := Prod.mk.inj hsplit
  obtain ⟨ho, pre, post, rfl, hpre⟩ := List.find?_eq_some_iff_append.1 hfind
  have hhost : o.host = h := by simpa using ho
  have hother : ∀ p ∈ pre, p.host ≠ h := by simpa using hpre
  refine ⟨pre, post, rfl, ?_, hhost, hother⟩
  rw [List.eraseP_append_right _ (by simpa using hother)]
  simp [hhost]

/-! ### The bytes of a slot -/

/-- Symbol `j` of an EncodedPixel is that of the bit the table gives: green, red, blue, bit 7 first (R63). -/
theorem getD_encodePixel (hw : Config) (c : Rgb) {j : Nat} (hj : j < 24) :
    (encodePixel hw c).getD j 0#8 = sym hw
      (if j < 8 then c.g.getLsbD (7 - j) else if j < 16 then c.r.getLsbD (15 - j) else c.b.getLsbD (23 - j)) := by
  rw [List.getD_eq_getElem?_getD, encodePixel]
  by_cases hg : j < 8
  · rw [if_pos hg, List.getElem?_append_left (show j < 16 by omega), List.getElem?_append_left hg,
      getElem?_encodeChannel _ _ _ hg, Option.getD_some]
  · rw [if_neg hg]
    by_cases hr : j < 16
    · rw [if_pos hr, List.getElem?_append_left hr, List.getElem?_append_right (Nat.le_of_not_lt hg),
        length_encodeChannel, getElem?_encodeChannel _ _ _ (by omega), Option.getD_some,
        show 7 - (j - 8) = 15 - j by omega]
    · rw [if_neg hr, List.getElem?_append_right (Nat.le_of_not_lt hr), List.length_append, length_encodeChannel,
        length_encodeChannel, getElem?_encodeChannel _ _ _ (by omega), Option.getD_some,
        show 7 - (j - (8 + 8)) = 23 - j by omega]

/-- Settles O39: a SETPX in range that goes on has written the EncodedPixel, whose symbols `getD_encodePixel` gives. -/
theorem slotHoldsChannelBits : Obligations.SlotHoldsChannelBits := by
  intro s t i c hv hi h j hj
  have hwrite : exec (.setpx i c) s =
      s.writeFB (slotOffset i.toNat) (encodePixel s.hw c) (fun u => .next (u.respond .ok [])) :=
    guarded_of_ok (pixelStatus_ok_iff.2 ⟨hv, hi⟩)
  obtain ⟨-, ht⟩ := writeFB_eq_next.1 (hwrite.symm.trans h)
  obtain rfl := Host.Outcome.next.inj ht
  exact (readByte_memWrite_inside hj).trans (getD_encodePixel s.hw c hj)

/-! ### A write repeated -/

/-- Zeroing the same block twice is zeroing it once. -/
theorem memZero_memZero {m : List Host.Cell} (hm : Memory.wf m) (x n : Nat) :
    memZero (memZero m x n) x n = memZero m x n := by
  simp only [memZero_eq_memWrite, memWrite_memWrite hm]

/-- CONFIG: a count that is accepted is accepted again, and the buffer it zeroes is zero already (R181). -/
theorem execConfig_repeat {s t : State} {n : Count} (hm : Memory.wf s.fb) (h : execConfig n s = .next t) :
    ∃ st, execConfig n t = .next (t.respond st []) := by
  unfold execConfig at h ⊢
  split at h
  · next hok =>
    obtain rfl := Host.Outcome.next.inj h
    have hstays : ((s.configured n).respond .ok []).configured n = (s.configured n).respond .ok [] := by
      simp only [State.configured, State.respond, memZero_memZero hm]
    exact ⟨.ok, congrArg _ ((if_pos hok).trans (by rw [hstays]))⟩
  · next hbad =>
    obtain rfl := Host.Outcome.next.inj h
    exact ⟨s.configStatus n, congrArg _ (if_neg hbad)⟩

/-- A checked write that answers OK: it changes FB and the observation alone, and the same write with the same check
then changes no byte. -/
theorem guarded_writeFB_repeat {s t : State} {st : Status} {a : Nat} {bs : List Byte} (hm : Memory.wf s.fb)
    (h : s.guarded st (s.writeFB a bs (fun u => .next (u.respond .ok []))) = .next t) :
    ∃ m tr st', t = s.twin m tr ∧
      t.guarded st (t.writeFB a bs (fun u => .next (u.respond .ok []))) = .next (t.respond st' []) := by
  rcases guarded_eq_next.1 h with ⟨hok, hwrite⟩ | ⟨hbad, rfl⟩
  · obtain ⟨hin, hnext⟩ := writeFB_eq_next.1 hwrite
    obtain rfl := Host.Outcome.next.inj hnext
    refine ⟨_, _, .ok, rfl, (guarded_of_ok hok).trans (writeFB_eq_next.2 ⟨hin, ?_⟩)⟩
    simp only [State.respond, memWrite_memWrite hm]
  · exact ⟨_, _, st, rfl, guarded_of_ne hbad⟩

/-- Settles O40: CONFIG zeroes its buffer again; CLEAR and SETPX are checked writes whose check and bytes depend on the
configuration alone, which they keep. -/
theorem repeatedWriteChangesNothing : Obligations.RepeatedWriteChangesNothing := by
  rintro _ s t hm (⟨n, rfl⟩ | ⟨c, rfl⟩ | ⟨n, c, rfl⟩) h
  · exact execConfig_repeat hm h
  · obtain ⟨m, tr, st, rfl, hagain⟩ := guarded_writeFB_repeat hm h
    exact ⟨st, hagain⟩
  · obtain ⟨m, tr, st, rfl, hagain⟩ := guarded_writeFB_repeat hm h
    exact ⟨st, hagain⟩

/-! ### The reset regions -/

/-- Settles O41: besides CONFIG only CLEAR, SETPX and SETPXF write FB, each inside the slots. -/
theorem onlyConfigWritesResetRegions : Obligations.OnlyConfigWritesResetRegions := by
  intro i s t hi h a ha
  have hslots : ∀ {k : Nat} {bs : List Byte}, 24 * k + bs.length ≤ 24 * s.pixels →
      readByte (memWrite s.fb (slotOffset k) bs) a = readByte s.fb a := fun {k bs} hle =>
    readByte_memWrite_outside (by
      rw [slotOffset_eq]
      rw [State.pixels] at hle
      omega)
  rcases exec_cases h with ⟨_, _, rfl⟩ | ⟨n, rfl, -⟩ | ⟨c, -, -, -, rfl⟩ | ⟨n, c, -, -, hn, -, rfl⟩ |
    ⟨n, c, -, -, hn, -, rfl⟩ | ⟨-, -, rfl⟩
  · rfl
  · exact absurd rfl (hi n)
  · exact hslots (by rw [length_clearBytes]; omega)
  · exact hslots (by rw [length_encodePixel]; omega)
  · exact hslots (by rw [length_encodePixel]; omega)
  · rfl

end Sys2Proof.Machine
end

section
/-!
PROOFS. The rules of the encoding (30_encoding.md R91 to R103). First the forms of Y, each as its reserved bits above its
operand, so that zero-extending an operand and reading it back are one equivalence; then `decode_eq_command_iff`, which says
of every word which command it decodes to.
-/
namespace Sys2Proof

/-! ### The operand forms of a field -/

theorem append_eq_append_iff {m n : Nat} {a a' : BitVec m} {b b' : BitVec n} :
    a ++ b = a' ++ b' ↔ a = a' ∧ b = b' := by
  constructor
  · intro h
    have ha := congrArg (·.extractLsb' n m) h
    have hb := congrArg (·.extractLsb' 0 n) h
    simp only [BitVec.extractLsb'_append_eq_left, BitVec.extractLsb'_append_eq_right] at ha hb
    exact ⟨ha, hb⟩
  · rintro ⟨rfl, rfl⟩
    rfl

/-- A word stands for one OP, one X and one Y (R91). -/
theorem wordOf_inj {op op' : Byte} {x x' : BitVec 24} {y y' : Count} :
    wordOf op x y = wordOf op' x' y' ↔ op = op' ∧ x = x' ∧ y = y' := by
  rw [wordOf, wordOf, append_eq_append_iff, append_eq_append_iff, and_assoc]

theorem Hsl.bits_inj {v v' : Hsl} : v.bits = v'.bits ↔ v = v' := by
  rw [Hsl.bits, Hsl.bits, append_eq_append_iff, append_eq_append_iff, and_assoc, ← Hsl.mk.injEq]

theorem aboveByte_append_byteOf (y : Count) : aboveByte y ++ byteOf y = y :=
  (BitVec.extractLsb'_append_extractLsb'_eq_extractLsb' (start₁ := 0) rfl).trans BitVec.extractLsb'_eq_self

theorem aboveHsl_append_bits_hslOf (y : Count) : aboveHsl y ++ (hslOf y).bits = y := by
  have hhs : y.extractLsb' 16 9 ++ y.extractLsb' 8 8 = y.extractLsb' 8 17 :=
    BitVec.extractLsb'_append_extractLsb'_eq_extractLsb' rfl
  have hhsl : y.extractLsb' 8 17 ++ y.extractLsb' 0 8 = y.extractLsb' 0 25 :=
    BitVec.extractLsb'_append_extractLsb'_eq_extractLsb' rfl
  rw [hslOf, Hsl.bits, hhs, hhsl]
  exact (BitVec.extractLsb'_append_extractLsb'_eq_extractLsb' (start₁ := 0) rfl).trans BitVec.extractLsb'_eq_self

theorem eq_bits_iff {x : BitVec 24} {c : Rgb} : x = c.bits ↔ colorOf x = c := by
  constructor
  · rintro rfl
    exact colorOf_bits c
  · rintro rfl
    exact (bits_colorOf x).symm

/-- A field Y is a zero-extended byte exactly when its reserved bits are 0 and the byte is the one read from it (R92). -/
theorem eq_setWidth_iff {y : Count} {v : Byte} : y = v.setWidth 32 ↔ aboveByte y = 0#24 ∧ byteOf y = v := by
  rw [← append_eq_append_iff, aboveByte_append_byteOf, BitVec.setWidth_eq_append (by decide)]
  rfl

/-- The same of an HSL value (R92). -/
theorem eq_setWidth_bits_iff {y : Count} {v : Hsl} :
    y = v.bits.setWidth 32 ↔ aboveHsl y = 0#7 ∧ hslOf y = v := by
  rw [← Hsl.bits_inj, ← append_eq_append_iff, aboveHsl_append_bits_hslOf, BitVec.setWidth_eq_append (by decide)]
  rfl

/-! ### Decoding and encoding -/

/-- Fields decode to `i` exactly when `i` is well-formed and they are the fields of its word. -/
theorem decodeFields_eq_command_iff {op : Byte} {x : BitVec 24} {y : Count} {i : Instr} :
    decodeFields op x y = .command i ↔ i.wellFormed = true ∧ op = i.opcode ∧ x = i.x ∧ y = i.y := by
  rw [decodeFields_eq_command]
  cases i with
  | hsl2rgb v =>
    simp only [Instr.wellFormed, Instr.opcode, Instr.x, Instr.y, eq_setWidth_bits_iff, Instr.hsl2rgb.injEq, reduceCtorEq,
      and_false, or_false, false_or]
    constructor
    · rintro ⟨hop, hvalid, hx, habove, rfl⟩
      exact ⟨hvalid, hop, hx, habove, rfl⟩
    · rintro ⟨hvalid, hop, hx, habove, rfl⟩
      exact ⟨hop, hvalid, hx, habove, rfl⟩
  | _ =>
    simp [Instr.wellFormed, Instr.opcode, Instr.x, Instr.y, eq_bits_iff, eq_setWidth_iff, and_comm, and_left_comm,
      and_assoc]

/-- A word decodes to `i` exactly when `i` is well-formed and the word is its word (R97). -/
theorem decode_eq_command_iff {w : Word} {i : Instr} :
    decode w = .command i ↔ i.wellFormed = true ∧ w = encode i := by
  rw [decode, decodeFields_eq_command_iff, encode, ← wordOf_inj, wordOf_fields]

/-- Settles O1: `decode_eq_command_iff` at the command's own word. -/
theorem decodeEncodeRoundTrip : Obligations.DecodeEncodeRoundTrip :=
  fun _ hi => decode_eq_command_iff.2 ⟨hi, rfl⟩

/-- Settles O2: the other direction of `decode_eq_command_iff`. -/
theorem decodedWordReencodes : Obligations.DecodedWordReencodes := by
  intro w i h
  obtain ⟨hi, rfl⟩ := decode_eq_command_iff.1 h
  exact ⟨hi, rfl⟩

/-- Settles O4: each word is written out, and the decoder runs on it. -/
theorem sampleWordsDecode : Obligations.SampleWordsDecode := by
  unfold Obligations.SampleWordsDecode
  decide

theorem opField_of_decode {w : Word} {i : Instr} (h : decode w = .command i) : opField w = i.opcode := by
  obtain ⟨-, rfl⟩ := decode_eq_command_iff.1 h
  exact opField_wordOf _ _ _

/-! ### The opcode table -/

theorem and_aboveByte_mask {y : Count} : y &&& 0xFFFFFF00#32 = 0#32 ↔ aboveByte y = 0#24 := by
  have hmask : 0xFFFFFF00#32 = BitVec.allOnes 24 ++ 0#8 := rfl
  have hzero : 0#32 = 0#24 ++ 0#8 := rfl
  conv_lhs => rw [← aboveByte_append_byteOf y]
  rw [hmask, hzero, BitVec.and_append, BitVec.and_allOnes, BitVec.and_zero, BitVec.append_left_inj]

theorem and_aboveHsl_mask {y : Count} : y &&& 0xFE000000#32 = 0#32 ↔ aboveHsl y = 0#7 := by
  have hmask : 0xFE000000#32 = BitVec.allOnes 7 ++ 0#25 := rfl
  have hzero : 0#32 = 0#7 ++ 0#25 := rfl
  conv_lhs => rw [← aboveHsl_append_bits_hslOf y]
  rw [hmask, hzero, BitVec.and_append, BitVec.and_allOnes, BitVec.and_zero, BitVec.append_left_inj]

/-- The table with every mask and pattern cut into OP, X and Y (R91). -/
theorem opcodeTable_eq_fields : opcodeTable =
    [ ⟨"RGB2HSL", wordOf 0xFF#8 0#24 0xFFFFFFFF#32,        wordOf 0x01#8 0#24 0#32⟩
    , ⟨"HSL2RGB", wordOf 0xFF#8 0xFFFFFF#24 0xFE000000#32, wordOf 0x02#8 0#24 0#32⟩
    , ⟨"APPLYL",  wordOf 0xFF#8 0#24 0xFFFFFF00#32,        wordOf 0x03#8 0#24 0#32⟩
    , ⟨"ENCCH",   wordOf 0xFF#8 0xFFFFFF#24 0xFFFFFF00#32, wordOf 0x10#8 0#24 0#32⟩
    , ⟨"ENCPX",   wordOf 0xFF#8 0#24 0xFFFFFFFF#32,        wordOf 0x11#8 0#24 0#32⟩
    , ⟨"BUFSZ",   wordOf 0xFF#8 0xFFFFFF#24 0#32,          wordOf 0x12#8 0#24 0#32⟩
    , ⟨"CONFIG",  wordOf 0xFF#8 0xFFFFFF#24 0#32,          wordOf 0x20#8 0#24 0#32⟩
    , ⟨"CLEAR",   wordOf 0xFF#8 0#24 0xFFFFFFFF#32,        wordOf 0x21#8 0#24 0#32⟩
    , ⟨"SETPX",   wordOf 0xFF#8 0#24 0#32,                 wordOf 0x22#8 0#24 0#32⟩
    , ⟨"SETPXF",  wordOf 0xFF#8 0#24 0#32,                 wordOf 0x23#8 0#24 0#32⟩
    , ⟨"RDBYTE",  wordOf 0xFF#8 0xFFFFFF#24 0#32,          wordOf 0x24#8 0#24 0#32⟩
    , ⟨"FLUSH",   wordOf 0xFF#8 0xFFFFFF#24 0xFFFFFFFF#32, wordOf 0x25#8 0#24 0#32⟩ ] := by
  decide

/-- A word fits a row exactly when each of its fields does. -/
theorem and_wordOf_eq_iff {w : Word} {m p : Byte} {mx px : BitVec 24} {my py : Count} :
    w &&& wordOf m mx my = wordOf p px py ↔ opField w &&& m = p ∧ xField w &&& mx = px ∧ yField w &&& my = py := by
  conv_lhs => rw [← wordOf_fields w, Laws.EncodingFitsTable.wordOf_and, wordOf_inj]

/-- Settles O3: field by field, row by row, the table and `decodeFields_eq_command` put the same conditions on a word. -/
theorem decoderAcceptsTableRows : Obligations.DecoderAcceptsTableRows := by
  intro w
  have hop : opField w &&& 0xFF#8 = opField w := BitVec.and_allOnes
  have hx : xField w &&& 0xFFFFFF#24 = xField w := BitVec.and_allOnes
  have hy : yField w &&& 0xFFFFFFFF#32 = yField w := BitVec.and_allOnes
  have hue_last := fun p : Prop => and_comm (a := (hslOf (yField w)).h.toNat ≤ 359) (b := p)
  simp [decode, decodeFields_eq_command, exists_or, Hsl.valid, opcodeTable_eq_fields, and_wordOf_eq_iff, hop, hx, hy,
    and_aboveByte_mask, and_aboveHsl_mask, hue_last, and_assoc]

end Sys2Proof
end

section
/-!
PROOFS. What the machine makes of a word (30_encoding.md R94, R96, R97, R100): the words that answer IllegalCommand, the HSL
beat as an operand, and that no step stops.
-/
namespace Sys2Proof.Machine

/-! ### The HSL beat -/

theorem rgbToHsl_valid (c : Rgb) : (rgbToHsl c).valid = true := by
  have hlt := hue_lt c
  simp only [Hsl.valid, rgbToHsl_h, decide_eq_true_eq]
  omega

/-- Settles O23: the beat cut to 32 bits is the field Y of the HSL2RGB of the same value, whose hue is in range. -/
theorem hslBeatFeedsBack : Obligations.HslBeatFeedsBack := by
  intro c
  have hword : wordOf 0x02#8 0#24 ((hslBeat (rgbToHsl c)).setWidth 32) = encode (.hsl2rgb (rgbToHsl c)) := by
    rw [hslBeat, BitVec.setWidth_setWidth_of_le _ (by decide)]
    rfl
  exact decode_eq_command_iff.2 ⟨rgbToHsl_valid c, hword⟩

/-! ### Illegal words -/

section
variable {s u : State} {o : Offer}

theorem step_of_illegal {e : Illegal} (ha : s.Accepts o u) (hd : decode o.word = .illegal e) :
    step s = .next (u.respond .illegalCommand []) := by
  rw [step_of_accepts ha, hd]
  rfl

theorem step_of_no_command (ha : s.Accepts o u) (hd : ∀ i, decode o.word ≠ .command i) :
    step s = .next (u.respond .illegalCommand []) := by
  cases hw : decode o.word with
  | command i => exact absurd hw (hd i)
  | illegal e => exact step_of_illegal ha hw

end

/-- Settles O6: `step_of_illegal` is the statement. -/
theorem illegalWordWritesNoState : Obligations.IllegalWordWritesNoState :=
  fun _ _ _ _ => step_of_illegal

/-- Settles O7: a word that decodes has the opcode of its command, which the table lists. -/
theorem unassignedOpcodeIsIllegal : Obligations.UnassignedOpcodeIsIllegal := by
  intro s u o ha hop
  refine step_of_no_command ha fun i hd => hop ?_
  rw [opField_of_decode hd]
  cases i <;> simp [Instr.opcode]

/-- Settles O17: under opcode 0x02 a command comes out of the hue check only. -/
theorem hsl2rgbRefusesHue : Obligations.Hsl2rgbRefusesHue := by
  intro s u o ha hop hhue
  refine step_of_no_command ha fun i hd => ?_
  rw [decode, hop] at hd
  obtain ⟨hvalid, -⟩ := needHue_eq_command.1 hd
  have hle : (hslOf (yField o.word)).h.toNat ≤ 359 := of_decide_eq_true hvalid
  omega

/-! ### No step stops

The only stop is an access to an offset FB does not have. The checks of a command keep its accesses inside the live buffer,
and the bound of R34 keeps the live buffer inside FB. -/

theorem guarded_goes_on {s : State} {st : Status} {k : Outcome} (hk : st = .ok → ∃ t, k = .next t) :
    ∃ t, s.guarded st k = .next t := by
  by_cases hst : st = .ok
  · rw [guarded_of_ok hst]
    exact hk hst
  · exact ⟨_, guarded_of_ne hst⟩

section
variable {s : State} (hr : s.cfgValid = true → s.pixels ≤ s.hw.nMax)
include hr

theorem exec_goes_on (i : Instr) : ∃ t, exec i s = .next t := by
  cases i with
  | rgb2hsl c => exact ⟨_, rfl⟩
  | hsl2rgb v => exact guarded_goes_on fun _ => ⟨_, rfl⟩
  | applyl base lv => exact ⟨_, rfl⟩
  | encch v => exact ⟨_, rfl⟩
  | encpx c => exact ⟨_, rfl⟩
  | bufsz n => exact ⟨_, rfl⟩
  | config n => exact ⟨_, rfl⟩
  | clear c =>
    refine guarded_goes_on fun hst => ⟨_, writeFB_eq_next.2 ⟨hasOffsets_of_le (hr (bufferStatus_ok_iff.1 hst)) ?_, rfl⟩⟩
    rw [slotOffset_eq, length_clearBytes, State.bufLen, bufferSize_eq]
    omega
  | setpx n c =>
    refine guarded_goes_on fun hst => ?_
    obtain ⟨hv, hn⟩ := pixelStatus_ok_iff.1 hst
    exact ⟨_, writeFB_eq_next.2 ⟨hasOffsets_slot (hr hv) hn, rfl⟩⟩
  | setpxf n c =>
    refine guarded_goes_on fun hst => ?_
    obtain ⟨hv, hn⟩ := pixelStatus_ok_iff.1 hst
    exact ⟨_, writeFB_eq_next.2 ⟨hasOffsets_slot (hr hv) hn, rfl⟩⟩
  | rdbyte a =>
    refine guarded_goes_on fun hst => ?_
    obtain ⟨hv, ha⟩ := offsetStatus_ok_iff.1 hst
    exact ⟨_, readFB_eq_next.2 ⟨hasOffsets_of_le (hr hv) ha, rfl⟩⟩
  | flush => exact guarded_goes_on fun _ => ⟨_, rfl⟩

theorem runOffer_goes_on (o : Offer) (rest : List Offer) : ∃ t, s.runOffer o rest = .next t := by
  unfold State.runOffer
  cases decode o.word with
  | command i => exact exec_goes_on (s := s.accepted o rest) hr i
  | illegal e => exact ⟨_, rfl⟩

theorem answered_goes_on (hv : s.phase = .stream → s.cfgValid = true) (a : Answer) : ∃ t, s.answered a = .next t := by
  unfold State.answered
  split
  · exact ⟨s, rfl⟩
  · next hp =>
    split
    · next hl =>
      cases a with
      | accept =>
        have ho : s.hasOffsets s.pos 1 = true := hasOffsets_of_le (hr (hv hp)) hl
        simp only [State.byteStep]
        exact ⟨_, readFB_eq_next.2 ⟨ho, rfl⟩⟩
      | done => exact ⟨s, rfl⟩
      | fail terr => exact ⟨_, rfl⟩
    · cases a with
      | accept => exact ⟨s, rfl⟩
      | done => exact ⟨_, rfl⟩
      | fail terr => exact ⟨_, rfl⟩

theorem coreStep_goes_on : ∃ t, s.coreStep = .next t := by
  unfold State.coreStep
  split
  · exact runOffer_goes_on hr _ _
  · exact ⟨s, rfl⟩

theorem takeTurn_goes_on (hv : s.phase = .stream → s.cfgValid = true) (t : Turn) : ∃ u, s.takeTurn t = .next u := by
  cases t with
  | offer h w => exact ⟨_, rfl⟩
  | grant h =>
    rcases granted_cases (s := s) (h := h) with hsame | ⟨o, rest, -, -, hrun⟩
    · exact ⟨s, hsame⟩
    · obtain ⟨t, ht⟩ := runOffer_goes_on hr o rest
      exact ⟨t, hrun.trans ht⟩
  | answer a => exact answered_goes_on hr hv a
  | reset g => exact ⟨_, rfl⟩

end

/-- Settles O57: the invariant holds the bound of R34, and a stream has a framebuffer to read. -/
theorem stepNeverStops : Obligations.StepNeverStops := by
  intro s hs
  have hr : s.cfgValid = true → s.pixels ≤ s.hw.nMax := fun hv => (hs.cfg_range hv).2
  unfold step
  split
  · exact coreStep_goes_on hr
  · next t ts _ => exact takeTurn_goes_on (s := { s with turns := ts }) hr hs.stream_configured t

end Sys2Proof.Machine
end

section
/-!
PROOFS. The values of the colour beats (30_encoding.md R99, R100), and RGB2HSL on the integers of the spec, where no
subtraction is cut off at 0 (40_colormath.md R122 to R127). Each branch of R126 is shown to give HN whenever its channel
attains the maximum, so that no later proof depends on the order of the tests.
-/
namespace Sys2Proof.Machine

/-! ### The beats as numbers -/

/-- The value of two fields side by side. -/
theorem toNat_append_eq_add {m n : Nat} (x : BitVec m) (y : BitVec n) : (x ++ y).toNat = x.toNat * 2 ^ n + y.toNat := by
  rw [BitVec.toNat_append, ← Nat.shiftLeft_add_eq_or_of_lt y.isLt, Nat.shiftLeft_eq]

theorem toNat_rgbBeat (c : Rgb) : (rgbBeat c).toNat = c.r.toNat * 65536 + c.g.toNat * 256 + c.b.toNat := by
  rw [rgbBeat, BitVec.toNat_setWidth_of_le (by decide), Rgb.bits, toNat_append_eq_add, toNat_append_eq_add]
  omega

theorem toNat_hslBeat (v : Hsl) : (hslBeat v).toNat = v.h.toNat * 65536 + v.s.toNat * 256 + v.l.toNat := by
  rw [hslBeat, BitVec.toNat_setWidth_of_le (by decide), Hsl.bits, toNat_append_eq_add, toNat_append_eq_add]
  omega

/-! ### RGB2HSL on the integers -/

theorem rnd_cast (a b : Nat) : (rnd a b : Int) = (2 * a + b) / (2 * b) := by
  simp [rnd]

section
variable (c : Rgb)

theorem channels_le_maxChannel : c.r.toNat ≤ maxChannel c ∧ c.g.toNat ≤ maxChannel c ∧ c.b.toNat ≤ maxChannel c := by
  simp [maxChannel]

theorem minChannel_le_channels : minChannel c ≤ c.r.toNat ∧ minChannel c ≤ c.g.toNat ∧ minChannel c ≤ c.b.toNat := by
  simp [minChannel]

theorem maxChannel_attained : maxChannel c = c.r.toNat ∨ maxChannel c = c.g.toNat ∨ maxChannel c = c.b.toNat := by
  rw [maxChannel]
  omega

theorem minChannel_attained : minChannel c = c.r.toNat ∨ minChannel c = c.g.toNat ∨ minChannel c = c.b.toNat := by
  rw [minChannel]
  omega

theorem maxChannel_cast : (maxChannel c : Int) = max (max (c.r.toNat : Int) c.g.toNat) c.b.toNat := by
  simp [maxChannel]

theorem minChannel_cast : (minChannel c : Int) = min (min (c.r.toNat : Int) c.g.toNat) c.b.toNat := by
  simp [minChannel]

theorem chroma_cast : (chroma c : Int) = maxChannel c - minChannel c := by
  have hle := minChannel_le_maxChannel c
  rw [chroma]
  omega

/-- S as R124 and R125 write it. -/
theorem saturation_cast : (saturation c : Int) =
    if (chroma c : Int) = 0 then 0
    else if (lightness c : Int) < 128 then (2 * (255 * (chroma c : Int)) + channelSum c) / (2 * channelSum c)
    else (2 * (255 * (chroma c : Int)) + (510 - channelSum c)) / (2 * (510 - channelSum c)) := by
  have hsum : ((510 - channelSum c : Nat) : Int) = 510 - channelSum c := by
    have hle := minChannel_le_maxChannel c
    have hmax := maxChannel_le c
    rw [channelSum]
    omega
  simp [saturation, rnd_cast, hsum, Nat.cast_ite]

variable {c}

/-- HN by the red branch of R126, when red attains the maximum. -/
theorem hueNumerator_of_red_max (h : maxChannel c = c.r.toNat) : (hueNumerator c : Int) =
    60 * ((c.g.toNat : Int) - c.b.toNat) + if (c.g.toNat : Int) < c.b.toNat then 360 * (chroma c : Int) else 0 := by
  obtain ⟨-, hg, hb⟩ := channels_le_maxChannel c
  obtain ⟨-, hg', hb'⟩ := minChannel_le_channels c
  have hchroma := chroma_cast c
  rw [hueNumerator, if_pos h]
  split_ifs <;> omega

/-- HN by the green branch, when green attains the maximum, be it red's as well: at that tie both branches give `60 * C`. -/
theorem hueNumerator_of_green_max (h : maxChannel c = c.g.toNat) :
    (hueNumerator c : Int) = 120 * chroma c + 60 * ((c.b.toNat : Int) - c.r.toNat) := by
  have hmin := minChannel_attained c
  obtain ⟨hr', -, hb'⟩ := minChannel_le_channels c
  obtain ⟨hr, -, hb⟩ := channels_le_maxChannel c
  have hchroma := chroma_cast c
  by_cases hred : maxChannel c = c.r.toNat
  · rw [hueNumerator_of_red_max hred]
    split_ifs <;> omega
  · rw [hueNumerator, if_neg hred, if_pos h]
    omega

/-- HN by the blue branch, when blue attains the maximum: at a tie with red both branches give `300 * C`, at a tie with
green `180 * C`. -/
theorem hueNumerator_of_blue_max (h : maxChannel c = c.b.toNat) :
    (hueNumerator c : Int) = 240 * chroma c + 60 * ((c.r.toNat : Int) - c.g.toNat) := by
  have hmin := minChannel_attained c
  obtain ⟨hr', hg', -⟩ := minChannel_le_channels c
  obtain ⟨hr, hg, -⟩ := channels_le_maxChannel c
  have hchroma := chroma_cast c
  by_cases hred : maxChannel c = c.r.toNat
  · rw [hueNumerator_of_red_max hred]
    split_ifs <;> omega
  · by_cases hgreen : maxChannel c = c.g.toNat
    · rw [hueNumerator_of_green_max hgreen]
      omega
    · rw [hueNumerator, if_neg hred, if_neg hgreen]
      omega

/-- H is the rounded quotient of any integer that equals HN. -/
theorem hue_eq_of_numerator {hn : Int} (hc : chroma c ≠ 0) (h : (hueNumerator c : Int) = hn) :
    (hue c : Int) = (2 * hn + chroma c) / (2 * chroma c) % 360 := by
  rw [hue, if_neg hc, ← h, ← rnd_cast]
  rfl

end

/-- Settles O14: each branch of R126 gives HN whenever its channel attains the maximum, ties included. -/
theorem hueIndependentOfTestOrder : Obligations.HueIndependentOfTestOrder := by
  intro c hc r g b mx chr
  have hmx : mx = maxChannel c := (maxChannel_cast c).symm
  have hchr : chr = chroma c := by rw [chroma_cast, maxChannel_cast, minChannel_cast]
  rw [hmx, hchr, rgbToHsl_h]
  refine ⟨fun h => ?_, fun h => ?_, fun h => ?_⟩
  · exact hue_eq_of_numerator hc (hueNumerator_of_red_max (Int.ofNat_inj.1 h))
  · exact hue_eq_of_numerator hc (hueNumerator_of_green_max (Int.ofNat_inj.1 h))
  · exact hue_eq_of_numerator hc (hueNumerator_of_blue_max (Int.ofNat_inj.1 h))

/-- HN as R126 writes it, with its order of tests. -/
theorem hueNumerator_cast (c : Rgb) : (hueNumerator c : Int) =
    if (maxChannel c : Int) = c.r.toNat then
      60 * ((c.g.toNat : Int) - c.b.toNat) + (if (c.g.toNat : Int) < c.b.toNat then 360 * (chroma c : Int) else 0)
    else if (maxChannel c : Int) = c.g.toNat then 120 * (chroma c : Int) + 60 * ((c.b.toNat : Int) - c.r.toNat)
    else 240 * (chroma c : Int) + 60 * ((c.r.toNat : Int) - c.g.toNat) := by
  by_cases hr : maxChannel c = c.r.toNat
  · rw [if_pos (congrArg _ hr), hueNumerator_of_red_max hr]
  · rw [if_neg (mt Int.ofNat_inj.1 hr)]
    by_cases hg : maxChannel c = c.g.toNat
    · rw [if_pos (congrArg _ hg), hueNumerator_of_green_max hg]
    · have hb : maxChannel c = c.b.toNat := by
        have hmax := maxChannel_attained c
        omega
      rw [if_neg (mt Int.ofNat_inj.1 hg), hueNumerator_of_blue_max hb]

/-- Settles O12: MX, MN, C and SUM are the integers of R122, and L, S and H then those of R123 to R126. -/
theorem rgb2hslFollowsFormulas : Obligations.Rgb2hslFollowsFormulas := by
  intro s c r g b mx mn chr sum l sat hn h
  have hmx : mx = maxChannel c := (maxChannel_cast c).symm
  have hmn : mn = minChannel c := (minChannel_cast c).symm
  have hchr : chr = chroma c := by rw [chroma_cast, ← hmx, ← hmn]
  have hsum : sum = channelSum c := by simp only [sum, hmx, hmn, channelSum, Nat.cast_add]
  have hl : l = lightness c := by simp only [l, hsum, lightness]; rfl
  have hsat : sat = saturation c := by simp only [sat, hchr, hl, hsum, saturation_cast]
  have hh : h = hue c := by
    by_cases hc : chroma c = 0
    · simp [h, hchr, hue, hc]
    · rw [hue_eq_of_numerator hc (hueNumerator_cast c)]
      simp [h, hn, hchr, hmx, hc, r, g, b]
  refine ⟨hslBeat (rgbToHsl c), rfl, ?_⟩
  rw [toNat_hslBeat, rgbToHsl_h, rgbToHsl_s, rgbToHsl_l, hl, hsat, hh]
  push_cast
  rfl

/-- S = 0 exactly without chroma (R124, R125). -/
theorem saturation_eq_zero_iff {c : Rgb} : saturation c = 0 ↔ chroma c = 0 := by
  constructor
  · intro hs
    by_contra hc
    have hpos := (saturation_range c hc).1
    omega
  · intro hc
    rw [saturation, if_pos hc]

/-- A colour has no chroma exactly when it is a grey. -/
theorem chroma_eq_zero_iff {c : Rgb} : chroma c = 0 ↔ c.r = c.g ∧ c.g = c.b := by
  rw [← BitVec.toNat_inj, ← BitVec.toNat_inj, chroma]
  constructor
  · intro hc
    have hmax := channels_le_maxChannel c
    have hmin := minChannel_le_channels c
    omega
  · rintro ⟨hrg, hgb⟩
    simp [maxChannel, minChannel, hrg, hgb]

theorem rgbToHsl_s_eq_zero_iff {c : Rgb} : (rgbToHsl c).s = 0#8 ↔ chroma c = 0 := by
  rw [← BitVec.toNat_inj, rgbToHsl_s, BitVec.toNat_zero, saturation_eq_zero_iff]

/-- Settles O13: `hue_lt`, and S and C are 0 for the same colours, at which H is 0 by R124. -/
theorem hslResultIsValid : Obligations.HslResultIsValid := by
  intro c
  refine ⟨rgbToHsl_valid c, rgbToHsl_s_eq_zero_iff.trans chroma_eq_zero_iff, fun hs => ?_, rgbToHsl_l c⟩
  rw [← BitVec.toNat_inj, rgbToHsl_h, hue, if_pos (rgbToHsl_s_eq_zero_iff.1 hs)]
  rfl

end Sys2Proof.Machine
end

section
/-!
PROOFS. HSL2RGB on the integers of the spec (40_colormath.md R128 to R132), what APPLYL makes of both conversions (R133,
R138, R139), and that no pure command reads or writes the state (R134).
-/
namespace Sys2Proof.Machine

/-! ### HSL2RGB -/

theorem exec_hsl2rgb {v : Hsl} (hv : v.h.toNat ≤ 359) (s : State) :
    exec (.hsl2rgb v) s = .next (s.respond .ok [rgbBeat (hslToRgb v)]) :=
  guarded_of_ok (hueStatus_ok_iff.2 hv)

theorem rgbToHsl_h_le (c : Rgb) : (rgbToHsl c).h.toNat ≤ 359 := of_decide_eq_true (rgbToHsl_valid c)

theorem exec_hsl2rgb_rgbToHsl (c : Rgb) (s : State) :
    exec (.hsl2rgb (rgbToHsl c)) s = .next (s.respond .ok [rgbBeat (hslToRgb (rgbToHsl c))]) :=
  exec_hsl2rgb (rgbToHsl_h_le c) s

section
variable {v : Hsl}

/-- Saturation 0 gives the grey of the lightness, black and white included (R128). -/
theorem hslToRgb_of_s_zero (hs : v.s = 0#8) : hslToRgb v = ⟨v.l, v.l, v.l⟩ := by
  rw [hslToRgb, if_pos hs]

theorem hslToRgb_of_l_zero (hl : v.l = 0#8) : hslToRgb v = Rgb.black := by
  by_cases hs : v.s = 0#8
  · rw [hslToRgb_of_s_zero hs, hl]
    rfl
  · rw [hslToRgb, if_neg hs, if_pos hl]
    rfl

theorem hslToRgb_of_l_max (hl : v.l = 255#8) : hslToRgb v = ⟨255#8, 255#8, 255#8⟩ := by
  by_cases hs : v.s = 0#8
  · rw [hslToRgb_of_s_zero hs, hl]
  · have hz : v.l ≠ 0#8 := by simp [hl]
    rw [hslToRgb, if_neg hs, if_neg hz, if_pos hl]

/-- Each channel of any other value is `channelAt`, exactly (R131, R132). -/
theorem hslToRgb_of_formula (hs : v.s ≠ 0#8) (hz : v.l ≠ 0#8) (hm : v.l ≠ 255#8) :
    (hslToRgb v).r.toNat = channelAt v.s.toNat v.l.toNat (v.h.toNat + 120) ∧
    (hslToRgb v).g.toNat = channelAt v.s.toNat v.l.toNat v.h.toNat ∧
    (hslToRgb v).b.toNat = channelAt v.s.toNat v.l.toNat (v.h.toNat + 240) := by
  have exact_narrowing : ∀ x, (BitVec.ofNat 8 (channelAt v.s.toNat v.l.toNat x)).toNat =
      channelAt v.s.toNat v.l.toNat x := fun x => by
    have hle := channelAt_le (s := v.s.toNat) (l := v.l.toNat) (by omega) (by bv_omega) x
    rw [BitVec.toNat_ofNat]
    omega
  rw [hslToRgb, if_neg hs, if_neg hz, if_neg hm]
  exact ⟨exact_narrowing _, exact_narrowing _, exact_narrowing _⟩

end

/-- Settles O15: the three cases of R128, which agree where two of them apply. -/
theorem hsl2rgbGreyBlackWhite : Obligations.Hsl2rgbGreyBlackWhite := by
  intro s v hv
  rw [exec_hsl2rgb hv]
  refine ⟨fun hs => ⟨_, rfl, ?_⟩, fun hl => ?_, fun hl => ?_⟩
  · rw [hslToRgb_of_s_zero hs, toNat_rgbBeat]
  · rw [hslToRgb_of_l_zero hl]
    rfl
  · rw [hslToRgb_of_l_max hl]
    rfl

/-! ### The formulas on the integers -/

theorem magnitudeQ_cast {s l : Nat} (hl : l ≤ 254) : (magnitudeQ s l : Int) =
    if (l : Int) < 128 then (4 * (l : Int) + 1) * (255 + s)
    else 255 * (4 * (l : Int) + 1) + 1020 * s - (4 * l + 1) * s := by
  have hle : (4 * l + 1) * s ≤ 1020 * s := Nat.mul_le_mul_right s (by omega)
  simp only [magnitudeQ, lightnessEst, Nat.cast_ite, Nat.cast_lt_ofNat]
  split_ifs
  · push_cast
    rfl
  · rw [Nat.cast_sub (by omega)]
    push_cast
    rfl

theorem magnitudeP_cast {s l : Nat} (hs : s ≤ 255) (hl : l ≤ 254) :
    (magnitudeP s l : Int) = 510 * (4 * (l : Int) + 1) - magnitudeQ s l := by
  obtain ⟨-, -, hq⟩ := magnitudes_range hs hl
  rw [magnitudeP, Nat.cast_sub hq, lightnessEst]
  push_cast
  rfl

/-- The triangular function as R130 writes it. -/
theorem tri_cast {p q : Nat} (hpq : p ≤ q) (x : Nat) : (tri p q x : Int) =
    if (x : Int) < 60 then 60 * (p : Int) + (q - p) * x
    else if (x : Int) < 180 then 60 * (q : Int)
    else if (x : Int) < 240 then 60 * (p : Int) + (q - p) * (240 - x)
    else 60 * (p : Int) := by
  simp only [tri, Nat.cast_ite, Nat.cast_lt_ofNat]
  split_ifs
  · push_cast [hpq]
    rfl
  · push_cast
    rfl
  · rw [Nat.cast_add, Nat.cast_mul, Nat.cast_mul, Nat.cast_sub hpq, Nat.cast_sub (by omega)]
    rfl
  · push_cast
    rfl

theorem channelAt_cast (s l x : Nat) : (channelAt s l x : Int) =
    (2 * (tri (magnitudeP s l) (magnitudeQ s l) (x % 360) : Nat) + 61200) / (2 * 61200) := by
  rw [channelAt, rnd_cast]
  rfl

/-- Settles O16: Q, P, `tri` and the channels of R129 to R131 are the model's, and `magnitudes_range` bounds them. -/
theorem hsl2rgbFollowsFormulas : Obligations.Hsl2rgbFollowsFormulas := by
  intro s v hv hs hz hm h sat l le q p tr channel
  have hsat : v.s.toNat ≤ 255 := by omega
  have hl : v.l.toNat ≤ 254 := by bv_omega
  obtain ⟨hpq, hqmax, -⟩ := magnitudes_range hsat hl
  have hq : q = magnitudeQ v.s.toNat v.l.toNat := (magnitudeQ_cast hl).symm
  have hp : p = magnitudeP v.s.toNat v.l.toNat := by rw [magnitudeP_cast hsat hl, ← hq]
  have htri : ∀ x : Nat, tr x = tri (magnitudeP v.s.toNat v.l.toNat) (magnitudeQ v.s.toNat v.l.toNat) x := fun x => by
    simp only [tr, hp, hq, tri_cast hpq]
  have hchannel : ∀ x : Nat, channel x = channelAt v.s.toNat v.l.toNat x := fun x => by
    rw [channelAt_cast, ← htri]
    rfl
  refine ⟨by omega, by omega, by omega, _, exec_hsl2rgb hv s, ?_⟩
  obtain ⟨hr, hg, hb⟩ := hslToRgb_of_formula hs hz hm
  rw [toNat_rgbBeat, hr, hg, hb]
  push_cast [← hchannel]
  rfl

/-! ### APPLYL -/

/-- Settles O18: the base's hue is in range, so HSL2RGB answers what APPLYL computes. -/
theorem applylScalesLightness : Obligations.ApplylScalesLightness := by
  intro s c lv
  exact ⟨rgbBeat (applyLightness c lv), rfl,
    exec_hsl2rgb (v := ⟨_, _, scaledLightness (rgbToHsl c).l lv⟩) (rgbToHsl_h_le c) s⟩

/-- Settles O19: the scaled lightness is 0. -/
theorem applylZeroIsBlack : Obligations.ApplylZeroIsBlack := by
  intro s c
  have hl : scaledLightness (rgbToHsl c).l 0#8 = 0#8 := by simp [scaledLightness]
  rw [exec, execApplyl, applyLightness, hslToRgb_of_l_zero hl]
  rfl

/-- Scaling by 255 keeps the lightness (R139). -/
theorem scaledLightness_max (l : Byte) : scaledLightness l 255#8 = l := by
  have h255 : (255#8).toNat = 255 := rfl
  rw [scaledLightness, h255, Nat.mul_div_cancel _ (by decide), BitVec.ofNat_toNat, BitVec.setWidth_eq]

/-- Settles O20: hue, saturation and lightness are those of the colour. -/
theorem applylFullIsRoundTrip : Obligations.ApplylFullIsRoundTrip := by
  intro s c
  rw [exec_hsl2rgb_rgbToHsl, exec, execApplyl, applyLightness, scaledLightness_max]

/-! ### The commands that write nothing -/

/-- Settles O42: each command ends in a response; those but RDBYTE take it from their operands and the parameters of the
chip, which `u` shares. -/
theorem pureCommandsKeepState : Obligations.PureCommandsKeepState := by
  intro i s t hi h
  rcases hi with ⟨c, rfl⟩ | ⟨v, rfl⟩ | ⟨c, lv, rfl⟩ | ⟨v, rfl⟩ | ⟨c, rfl⟩ | ⟨n, rfl⟩ | ⟨a, rfl⟩
  · exact ⟨.ok, _, (Host.Outcome.next.inj h).symm, fun _ _ _ => rfl⟩
  · rcases guarded_eq_next.1 h with ⟨hok, hnext⟩ | ⟨hbad, rfl⟩
    · exact ⟨.ok, _, (Host.Outcome.next.inj hnext).symm, fun _ _ _ => guarded_of_ok hok⟩
    · exact ⟨_, [], rfl, fun _ _ _ => guarded_of_ne hbad⟩
  · exact ⟨.ok, _, (Host.Outcome.next.inj h).symm, fun _ _ _ => rfl⟩
  · exact ⟨.ok, _, (Host.Outcome.next.inj h).symm, fun _ u hu => by rw [← hu]; rfl⟩
  · exact ⟨.ok, _, (Host.Outcome.next.inj h).symm, fun _ u hu => by rw [← hu]; rfl⟩
  · exact ⟨.ok, _, (Host.Outcome.next.inj h).symm, fun _ _ _ => rfl⟩
  · have hno_claim : ¬ ∀ b, Instr.rdbyte a ≠ .rdbyte b := fun hne => hne a rfl
    rcases guarded_eq_next.1 h with ⟨-, hread⟩ | ⟨-, rfl⟩
    · obtain ⟨-, hnext⟩ := readFB_eq_next.1 hread
      exact ⟨.ok, _, (Host.Outcome.next.inj hnext).symm, fun hne => absurd hne hno_claim⟩
    · exact ⟨_, [], rfl, fun hne => absurd hne hno_claim⟩

end Sys2Proof.Machine
end

section
/-!
PROOFS. The round trip (40_colormath.md R140). Both conversions are piecewise linear, so the deviation splits in two: Q and P
are within 765/1020 of the largest and the smallest channel, for S and L carry one rounding each, and the rounded hue puts a
channel between them within half a degree of its place. The two together stay below 3.5, hence within 3 after the last
rounding. All of it is on natural numbers, scaled as Q, P and `tri` are.
-/
namespace Sys2Proof.Machine

/-- `a` and `b` differ by at most `k`. -/
def Within (k a b : Nat) : Prop := a ≤ b + k ∧ b ≤ a + k

theorem Within.mul {k a b : Nat} (h : Within k a b) (n : Nat) : Within (n * k) (n * a) (n * b) := by
  obtain ⟨hab, hba⟩ := h
  rw [Within, ← Nat.mul_add, ← Nat.mul_add]
  exact ⟨Nat.mul_le_mul_left n hab, Nat.mul_le_mul_left n hba⟩

/-- `b * rnd(a, b)` is within half of `b` of `a`. -/
theorem rnd_within {b : Nat} (hb : 0 < b) (a : Nat) : Within b (2 * (b * rnd a b)) (2 * a) := by
  have hdiv : 2 * b * rnd a b + (2 * a + b) % (2 * b) = 2 * a + b := Nat.div_add_mod (2 * a + b) (2 * b)
  have hmod : (2 * a + b) % (2 * b) < 2 * b := Nat.mod_lt _ (by omega)
  rw [Nat.mul_assoc] at hdiv
  constructor <;> omega

/-- Whole multiples of the divisor pass through a rounding. -/
theorem rnd_mul_add {b : Nat} (hb : 0 < b) (n a : Nat) : rnd (n * b + a) b = n + rnd a b := by
  have hsum : 2 * (n * b + a) + b = 2 * a + b + n * (2 * b) := by ring
  rw [rnd, hsum, Nat.add_mul_div_right _ _ (by omega), rnd, Nat.add_comm]

/-! ### The magnitudes -/

/-- `510 * C` as S and L give it back: Q and P lie this far above and below `255 * LE`. -/
def spread (s l : Nat) : Nat := if l < 128 then lightnessEst l * s else (1020 - lightnessEst l) * s

theorem magnitudeQ_eq {l : Nat} (hl : l ≤ 254) (s : Nat) : magnitudeQ s l = 255 * lightnessEst l + spread s l := by
  rw [magnitudeQ, spread]
  split_ifs
  · ring
  · have hle : lightnessEst l * s ≤ 1020 * s := Nat.mul_le_mul_right s (by rw [lightnessEst]; omega)
    rw [Nat.sub_mul]
    omega

theorem magnitudeP_eq {l : Nat} (hl : l ≤ 254) (s : Nat) : magnitudeP s l = 255 * lightnessEst l - spread s l := by
  rw [magnitudeP, magnitudeQ_eq hl]
  omega

/-- With `2 * w` within 1 of twice the divisor of the rounding, as LE and `1020 - LE` are, `w` times the rounded quotient
gives back twice the dividend up to 510. -/
theorem mul_rnd_within {a d w : Nat} (hd : 0 < d) (hd' : d ≤ 255) (hr : rnd a d ≤ 255)
    (hw : w = 2 * d + 1 ∨ w + 1 = 2 * d) :
    Within 510 (w * rnd a d) (2 * a) := by
  obtain ⟨h1, h2⟩ := rnd_within hd a
  have hmul : w * rnd a d = 2 * (d * rnd a d) + rnd a d ∨ w * rnd a d + rnd a d = 2 * (d * rnd a d) := by
    rcases hw with rfl | hw
    · exact .inl (by ring)
    · exact .inr (by rw [← Nat.succ_mul, Nat.succ_eq_add_one, hw, Nat.mul_assoc])
  rw [Within]
  omega

section
variable {c : Rgb} (hc : chroma c ≠ 0)
include hc

theorem spread_within (hl : lightness c ≤ 254) :
    Within 510 (spread (saturation c) (lightness c)) (510 * chroma c) := by
  have hsat := (saturation_range c hc).2
  have hmax := maxChannel_le c
  have hsum : channelSum c = maxChannel c + minChannel c := rfl
  have hlight : lightness c = channelSum c / 2 := rfl
  have hdiff : chroma c = maxChannel c - minChannel c := rfl
  have hdouble : 510 * chroma c = 2 * (255 * chroma c) := by ring
  rw [saturation, if_neg hc] at hsat ⊢
  rw [spread, hdouble, lightnessEst]
  split_ifs at hsat ⊢
  · exact mul_rnd_within (by omega) (by omega) hsat (by omega)
  · exact mul_rnd_within (by omega) (by omega) hsat (by omega)

/-- Q and P are within 765 of what they stand for: 255 of it for the half unit that L drops, 510 for S. -/
theorem magnitudes_within (hl : lightness c ≤ 254) :
    Within 765 (magnitudeQ (saturation c) (lightness c)) (1020 * maxChannel c) ∧
    Within 765 (magnitudeP (saturation c) (lightness c)) (1020 * minChannel c) := by
  obtain ⟨h1, h2⟩ := spread_within hc hl
  have hle := minChannel_le_maxChannel c
  have hsum : channelSum c = maxChannel c + minChannel c := rfl
  have hlight : lightness c = channelSum c / 2 := rfl
  have hdiff : chroma c = maxChannel c - minChannel c := rfl
  have hest : lightnessEst (lightness c) = 4 * lightness c + 1 := rfl
  rw [magnitudeQ_eq hl, magnitudeP_eq hl, Within, Within]
  omega

end

/-! ### The place of a channel between them -/

/-- How far `tri` has risen from P to Q at `x` degrees, in sixtieths. -/
def tent (x : Nat) : Nat :=
  if x < 60 then x
  else if x < 180 then 60
  else if x < 240 then 240 - x
  else 0

theorem tent_le (x : Nat) : tent x ≤ 60 := by
  rw [tent]
  split_ifs <;> omega

theorem weighted_eq {n y : Nat} (h : y ≤ n) (a d : Nat) : (n - y) * a + y * (a + d) = n * a + y * d := by
  rw [Nat.mul_add, ← Nat.add_assoc, ← Nat.add_mul, Nat.sub_add_cancel h]

/-- `tri` weighs P and Q by `tent`. -/
theorem tri_eq_weighted {p q : Nat} (h : p ≤ q) (x : Nat) : tri p q x = (60 - tent x) * p + tent x * q := by
  obtain ⟨d, rfl⟩ := Nat.exists_eq_add_of_le h
  rw [weighted_eq (tent_le x), Nat.mul_comm _ d, tri, tent, Nat.add_sub_cancel_left]
  split_ifs
  · rfl
  · ring
  · rfl
  · rfl

/-- `w` sixtieths of the chroma are what the channel value `v` has above the smallest, to the nearest sixtieth. -/
def Share (c : Rgb) (v w : Nat) : Prop := Within (chroma c) (2 * (chroma c * w)) (120 * (v - minChannel c))

/-- A channel in its place comes back within 3. -/
theorem channelAt_within {c : Rgb} {v x : Nat} (hc : chroma c ≠ 0) (hl : lightness c ≤ 254)
    (hv : minChannel c ≤ v) (hshare : Share c v (tent (x % 360))) :
    Within 3 (channelAt (saturation c) (lightness c) x) v := by
  obtain ⟨hpq, -, -⟩ := magnitudes_range (saturation_le c) hl
  obtain ⟨hq, hp⟩ := magnitudes_within hc hl
  have hle := minChannel_le_maxChannel c
  have hmax := maxChannel_le c
  have hdiff : maxChannel c = minChannel c + chroma c := by rw [chroma]; omega
  rw [channelAt, tri_eq_weighted hpq]
  have hy := tent_le (x % 360)
  generalize tent (x % 360) = y at *
  obtain ⟨hq1, hq2⟩ := hq.mul y
  obtain ⟨hp1, hp2⟩ := hp.mul (60 - y)
  obtain ⟨hs1, hs2⟩ := hshare
  have hplace : (60 - y) * (1020 * minChannel c) + y * (1020 * maxChannel c) =
      1020 * (60 * minChannel c + chroma c * y) := by
    rw [hdiff, Nat.mul_add 1020, weighted_eq hy]
    ring
  obtain ⟨hr1, hr2⟩ := rnd_within (b := 61200) (by decide)
    ((60 - y) * magnitudeP (saturation c) (lightness c) + y * magnitudeQ (saturation c) (lightness c))
  rw [Within]
  omega

/-! ### The hue -/

/-- In the sector from `60 * k` degrees on, H is `60 * k` and the rounded rest, which may reach the next sector's start. -/
theorem hue_in_sector {c : Rgb} {k n : Nat} (hc : chroma c ≠ 0) (hn : n ≤ chroma c)
    (h : hueNumerator c = 60 * k * chroma c + 60 * n) :
    ∃ y ≤ 60, hue c = (60 * k + y) % 360 ∧ Within (chroma c) (2 * (chroma c * y)) (120 * n) := by
  have hpos : 0 < chroma c := by omega
  refine ⟨rnd (60 * n) (chroma c), rnd_le hpos (by omega), ?_, ?_⟩
  · rw [hue, if_neg hc, h, rnd_mul_add hpos]
  · have hdouble : 120 * n = 2 * (60 * n) := by ring
    rw [hdouble]
    exact rnd_within hpos (60 * n)

/-! In the four regions of R130 a channel is in its place when its value is the largest, the smallest, or `n` above the
smallest or below the largest, with `y` degrees for `n`. -/

section
variable {c : Rgb} {v n x y : Nat}

theorem share_top (hv : v = maxChannel c) (h1 : 60 ≤ x) (h2 : x ≤ 180) : Share c v (tent x) := by
  have hx : tent x = 60 := by
    rw [tent]
    split_ifs <;> omega
  rw [hx, Share, Within, hv, chroma]
  omega

theorem share_bottom (hv : v = minChannel c) (h : x = 0 ∨ 240 ≤ x) : Share c v (tent x) := by
  have hx : tent x = 0 := by
    rw [tent]
    split_ifs <;> omega
  rw [hx, Share, Within, hv]
  omega

theorem share_rising (hv : v = minChannel c + n) (hw : Within (chroma c) (2 * (chroma c * y)) (120 * n)) (hy : y ≤ 60)
    (h : x = y) : Share c v (tent x) := by
  have hx : tent x = y := by
    rw [tent]
    split_ifs <;> omega
  rwa [hx, Share, hv, Nat.add_sub_cancel_left]

theorem share_falling (hv : maxChannel c = v + n) (hv' : minChannel c ≤ v)
    (hw : Within (chroma c) (2 * (chroma c * y)) (120 * n)) (hy : y ≤ 60) (h : x = 180 + y) : Share c v (tent x) := by
  have hx : tent x = 60 - y := by
    rw [tent]
    split_ifs <;> omega
  have hdiff : chroma c = maxChannel c - minChannel c := rfl
  have hmul : chroma c * y ≤ chroma c * 60 := Nat.mul_le_mul_left _ hy
  obtain ⟨h1, h2⟩ := hw
  rw [hx, Share, Within, Nat.mul_sub]
  omega

end

/-- Every channel is in its place at its own offset of R131: sector by sector, one is the largest, one the smallest, and
the hue is where the third one rises or falls. -/
theorem channels_in_place {c : Rgb} (hc : chroma c ≠ 0) :
    Share c c.r.toNat (tent ((hue c + 120) % 360)) ∧
    Share c c.g.toNat (tent (hue c % 360)) ∧
    Share c c.b.toNat (tent ((hue c + 240) % 360)) := by
  have hdiff := chroma_cast c
  have hmin := minChannel_attained c
  obtain ⟨hr', hg', hb'⟩ := minChannel_le_channels c
  obtain ⟨hr, hg, hb⟩ := channels_le_maxChannel c
  rcases maxChannel_attained c with hmax | hmax | hmax
  · have hnum := hueNumerator_of_red_max hmax
    split_ifs at hnum
    · obtain ⟨y, hy, hhue, hw⟩ :=
        hue_in_sector (k := 5) (n := c.r.toNat - c.b.toNat) hc (by omega) (by omega)
      exact ⟨share_top hmax.symm (by omega) (by omega), share_bottom (by omega) (by omega),
        share_falling (by omega) hb' hw hy (by omega)⟩
    · obtain ⟨y, hy, hhue, hw⟩ :=
        hue_in_sector (k := 0) (n := c.g.toNat - c.b.toNat) hc (by omega) (by omega)
      exact ⟨share_top hmax.symm (by omega) (by omega), share_rising (by omega) hw hy (by omega),
        share_bottom (by omega) (by omega)⟩
  · have hnum := hueNumerator_of_green_max hmax
    by_cases hbr : c.b.toNat < c.r.toNat
    · obtain ⟨y, hy, hhue, hw⟩ :=
        hue_in_sector (k := 1) (n := c.g.toNat - c.r.toNat) hc (by omega) (by omega)
      exact ⟨share_falling (by omega) hr' hw hy (by omega), share_top hmax.symm (by omega) (by omega),
        share_bottom (by omega) (by omega)⟩
    · obtain ⟨y, hy, hhue, hw⟩ :=
        hue_in_sector (k := 2) (n := c.b.toNat - c.r.toNat) hc (by omega) (by omega)
      exact ⟨share_bottom (by omega) (by omega), share_top hmax.symm (by omega) (by omega),
        share_rising (by omega) hw hy (by omega)⟩
  · have hnum := hueNumerator_of_blue_max hmax
    by_cases hrg : c.r.toNat < c.g.toNat
    · obtain ⟨y, hy, hhue, hw⟩ :=
        hue_in_sector (k := 3) (n := c.b.toNat - c.g.toNat) hc (by omega) (by omega)
      exact ⟨share_bottom (by omega) (by omega), share_falling (by omega) hg' hw hy (by omega),
        share_top hmax.symm (by omega) (by omega)⟩
    · obtain ⟨y, hy, hhue, hw⟩ :=
        hue_in_sector (k := 4) (n := c.r.toNat - c.g.toNat) hc (by omega) (by omega)
      exact ⟨share_rising (by omega) hw hy (by omega), share_bottom (by omega) (by omega),
        share_top hmax.symm (by omega) (by omega)⟩

/-! ### The round trip -/

/-- A grey returns exactly (R124, R128). -/
theorem hslToRgb_rgbToHsl_of_grey {c : Rgb} (hc : chroma c = 0) : hslToRgb (rgbToHsl c) = c := by
  obtain ⟨hrg, hgb⟩ := chroma_eq_zero_iff.1 hc
  have hl : (rgbToHsl c).l = c.b := by
    have hmax := channels_le_maxChannel c
    have hmin := minChannel_le_channels c
    rw [chroma] at hc
    rw [← BitVec.toNat_inj, rgbToHsl_l, lightness, channelSum]
    omega
  have hc' : c = ⟨c.r, c.g, c.b⟩ := rfl
  rw [hslToRgb_of_s_zero (rgbToHsl_s_eq_zero_iff.2 hc), hl, hc', hrg, hgb]

/-- Settles O22: the greys in general, the six other colours by evaluation. -/
theorem greysAndPrimariesRoundTrip : Obligations.GreysAndPrimariesRoundTrip :=
  ⟨fun _ => hslToRgb_rgbToHsl_of_grey (chroma_eq_zero_iff.2 ⟨rfl, rfl⟩), by decide⟩

section
variable {c : Rgb}

/-- The formulas of R129 to R131 bring every channel back within 3. -/
theorem roundTrip_within_of_formula (hc : chroma c ≠ 0) (hz : lightness c ≠ 0) :
    Within 3 (hslToRgb (rgbToHsl c)).r.toNat c.r.toNat ∧
    Within 3 (hslToRgb (rgbToHsl c)).g.toNat c.g.toNat ∧
    Within 3 (hslToRgb (rgbToHsl c)).b.toNat c.b.toNat := by
  have hl : lightness c ≤ 254 := by
    have hmax := maxChannel_le c
    rw [chroma] at hc
    rw [lightness, channelSum]
    omega
  have hlz : (rgbToHsl c).l ≠ 0#8 := fun h => hz (by rw [← rgbToHsl_l, h]; rfl)
  have hlm : (rgbToHsl c).l ≠ 255#8 := fun h => by
    have hl255 : lightness c = 255 := by rw [← rgbToHsl_l, h]; rfl
    omega
  obtain ⟨hr, hg, hb⟩ := hslToRgb_of_formula (mt rgbToHsl_s_eq_zero_iff.1 hc) hlz hlm
  obtain ⟨hplace_r, hplace_g, hplace_b⟩ := channels_in_place hc
  obtain ⟨hmin_r, hmin_g, hmin_b⟩ := minChannel_le_channels c
  rw [hr, hg, hb, rgbToHsl_h, rgbToHsl_s, rgbToHsl_l]
  exact ⟨channelAt_within hc hl hmin_r hplace_r, channelAt_within hc hl hmin_g hplace_g,
    channelAt_within hc hl hmin_b hplace_b⟩

/-- A colour with L = 0 comes back as black, and none of its channels is above 1. -/
theorem roundTrip_within_of_dark (hz : lightness c = 0) :
    Within 3 (hslToRgb (rgbToHsl c)).r.toNat c.r.toNat ∧
    Within 3 (hslToRgb (rgbToHsl c)).g.toNat c.g.toNat ∧
    Within 3 (hslToRgb (rgbToHsl c)).b.toNat c.b.toNat := by
  have hl : (rgbToHsl c).l = 0#8 := by
    rw [← BitVec.toNat_inj, rgbToHsl_l, hz]
    rfl
  have hdark := channels_le_maxChannel c
  rw [lightness, channelSum] at hz
  rw [hslToRgb_of_l_zero hl]
  simp only [Rgb.black, Within, BitVec.ofNat_eq_ofNat, BitVec.toNat_zero]
  omega

end

/-- Settles O21: the beat is that of the round trip, which is exact for a grey, black at lightness 0, and else given by the
formulas. -/
theorem roundTripWithinThree : Obligations.RoundTripWithinThree := by
  intro s c
  refine ⟨_, exec_hsl2rgb_rgbToHsl c s, ?_⟩
  by_cases hc : chroma c = 0
  · rw [hslToRgb_rgbToHsl_of_grey hc]
    omega
  · by_cases hz : lightness c = 0
    · exact roundTrip_within_of_dark hz
    · exact roundTrip_within_of_formula hc hz

end Sys2Proof.Machine
end

section
/-!
PROOFS. The codec (41_symbolcodec.md R160 to R169): the bytes of a packed beat, what ENCCH, ENCPX and BUFSZ answer, and the
two facts about the symbols themselves, each proved of a channel and carried to the three channels of a pixel.
-/
namespace Sys2Proof.Machine

/-! ### The bytes of a beat -/

/-- A packed list of at most 8 symbols holds each of them, the last one lowest (30_encoding.md R101). Bytes beyond the
eighth would be shifted out of the word. -/
theorem extractLsb'_symbolsBeat {ss : List Byte} {k : Nat} (hlen : ss.length ≤ 8) (hk : k < ss.length) :
    (symbolsBeat ss).extractLsb' (8 * (ss.length - 1 - k)) 8 = ss[k] := by
  induction ss using List.reverseRecOn with
  | nil => exact absurd hk (Nat.not_lt_zero k)
  | append_singleton ss b ih =>
    rw [List.length_append, List.length_singleton] at hlen hk
    apply BitVec.eq_of_getLsbD_eq
    intro i hi
    rw [BitVec.getLsbD_extractLsb', decide_eq_true hi, Bool.true_and, List.length_append, List.length_singleton,
      symbolsBeat_append_getLsbD _ _ _ (by omega)]
    by_cases hlast : k = ss.length
    · subst hlast
      rw [if_pos (by omega), List.getElem_concat_length rfl]
      congr 1
      omega
    · have hk' : k < ss.length := by omega
      rw [if_neg (by omega), List.getElem_append_left hk', ← ih (by omega) hk', BitVec.getLsbD_extractLsb',
        decide_eq_true hi, Bool.true_and]
      congr 1
      omega

/-- Byte `k` from the top of a channel's beat is the symbol of bit `7 - k` (R101, R161). -/
theorem extractLsb'_symbolsBeat_encodeChannel (hw : Config) (v : Byte) {k : Nat} (hk : k < 8) :
    (symbolsBeat (encodeChannel hw v)).extractLsb' (56 - 8 * k) 8 = sym hw (v.getLsbD (7 - k)) := by
  have hlen : (encodeChannel hw v).length = 8 := length_encodeChannel hw v
  have hoff : 56 - 8 * k = 8 * ((encodeChannel hw v).length - 1 - k) := by omega
  rw [hoff, extractLsb'_symbolsBeat hlen.le (hlen ▸ hk), List.getElem_eq_iff]
  exact getElem?_encodeChannel hw v k hk

/-- A buffer length fits its beat, whatever the count (R102). -/
theorem toNat_countBeat_bufferSize (n : Count) : (countBeat (bufferSize n.toNat)).toNat = 24 * (8 + n.toNat) := by
  have hn := n.isLt
  rw [countBeat, BitVec.toNat_ofNat, bufferSize_eq, Nat.mod_eq_of_lt (by omega)]
  omega

/-! ### The commands -/

/-- Settles O24: the beat is the packed channel. -/
theorem encchPacksSymbols : Obligations.EncchPacksSymbols := fun s v =>
  ⟨_, rfl, fun _ hk => extractLsb'_symbolsBeat_encodeChannel s.hw v hk⟩

/-- Settles O25: each beat is a packed channel. -/
theorem encpxPacksGreenRedBlue : Obligations.EncpxPacksGreenRedBlue := fun s c =>
  ⟨_, _, _, rfl, fun _ hk => ⟨extractLsb'_symbolsBeat_encodeChannel s.hw c.g hk,
    extractLsb'_symbolsBeat_encodeChannel s.hw c.r hk, extractLsb'_symbolsBeat_encodeChannel s.hw c.b hk⟩⟩

/-- Settles O28: the response is the buffer length, in every state and for every count. -/
theorem bufszIsExact : Obligations.BufszIsExact := fun _ n => ⟨_, rfl, toNat_countBeat_bufferSize n⟩

/-! ### The symbols -/

section
variable {hw : Config}

/-- Bit `i` is read back from element `7 - i`, for the two symbols differ (R168). -/
theorem encodeChannel_inj (h : hw.Valid) {v v' : Byte} : encodeChannel hw v = encodeChannel hw v' ↔ v = v' := by
  refine ⟨fun heq => BitVec.eq_of_getLsbD_eq fun i hi => ?_, congrArg _⟩
  have hk : 7 - i < 8 := by omega
  have hsym := congrArg (·[7 - i]?) heq
  simp only [getElem?_encodeChannel _ _ _ hk, Option.some.injEq, sym_inj h] at hsym
  rwa [show 7 - (7 - i) = i by omega] at hsym

theorem encodePixel_inj (h : hw.Valid) {c c' : Rgb} : encodePixel hw c = encodePixel hw c' ↔ c = c' := by
  refine ⟨fun heq => ?_, congrArg _⟩
  obtain ⟨hgr, hb⟩ := List.append_inj heq rfl
  obtain ⟨hg, hr⟩ := List.append_inj hgr rfl
  rw [encodeChannel_inj h] at hg hr hb
  exact (Rgb.mk.injEq ..).mpr ⟨hr, hg, hb⟩

theorem zero_notMem_encodeChannel (h : hw.Valid) (v : Byte) : 0#8 ∉ encodeChannel hw v := by
  simp [encodeChannel, (sym_ne_zero h _).symm]

theorem zero_notMem_encodePixel (h : hw.Valid) (c : Rgb) : 0#8 ∉ encodePixel hw c := by
  simp [encodePixel, zero_notMem_encodeChannel h]

end

/-- Settles O26: a channel determines its bits, and a pixel its channels. -/
theorem symbolCodesInjective : Obligations.SymbolCodesInjective := fun _ h =>
  ⟨fun _ _ => (encodeChannel_inj h).1, fun _ _ => (encodePixel_inj h).1⟩

/-- Settles O27: every element is the symbol of a data bit. -/
theorem symbolsAreNeverZero : Obligations.SymbolsAreNeverZero := fun _ h =>
  ⟨zero_notMem_encodeChannel h, zero_notMem_encodePixel h⟩

end Sys2Proof.Machine
end

section
/-!
PROOFS. The commands of FBENC (42_framebuffer.md R181 to R187). First what each one answers when its checks pass and FB has
the bytes it reaches, then the bytes it leaves, and last the refinement: what a command does to the strip a host thinks of.
-/
namespace Sys2Proof.Machine

section
variable {s : State}

/-! ### What a command answers -/

theorem writeFB_of_hasOffsets {a : Nat} {bs : List Byte} (h : s.hasOffsets a bs.length = true) (k : State → Outcome) :
    s.writeFB a bs k = k { s with fb := memWrite s.fb a bs } := if_pos h

/-- CONFIG answers by its check alone (R181). -/
theorem exec_config_of_ok {n : Count} (h : s.configStatus n = .ok) :
    exec (.config n) s = .next ((s.configured n).respond .ok []) := congrArg _ (if_pos h)

theorem exec_config_of_ne {n : Count} (h : s.configStatus n ≠ .ok) :
    exec (.config n) s = .next (s.raise (s.configStatus n)) := congrArg _ (if_neg h)

/-- The slots of a live buffer are inside FB, so CLEAR reaches no byte that is not there (R182). -/
theorem exec_clear_of_ok (hv : s.cfgValid = true) (hr : s.pixels ≤ s.hw.nMax) (c : Rgb) :
    exec (.clear c) s =
      .next (State.respond { s with fb := memWrite s.fb (slotOffset 0) (clearBytes s.hw s.pixels c) } .ok []) := by
  have hin : s.hasOffsets (slotOffset 0) (clearBytes s.hw s.pixels c).length = true := hasOffsets_of_le hr (by
    rw [slotOffset_eq, length_clearBytes, State.bufLen, bufferSize_eq]
    omega)
  exact (guarded_of_ok (bufferStatus_ok_iff.2 hv)).trans (writeFB_of_hasOffsets hin _)

/-- SETPX and SETPXF write one slot and go on (R183, R184). -/
theorem guarded_writePixel_of_ok {i : Count} (hv : s.cfgValid = true) (hr : s.pixels ≤ s.hw.nMax) (hi : i.toNat < s.pixels)
    (c : Rgb) (k : State → Outcome) :
    s.guarded (s.pixelStatus i) (s.writeFB (slotOffset i.toNat) (encodePixel s.hw c) k) =
      k { s with fb := memWrite s.fb (slotOffset i.toNat) (encodePixel s.hw c) } :=
  (guarded_of_ok (pixelStatus_ok_iff.2 ⟨hv, hi⟩)).trans (writeFB_of_hasOffsets (hasOffsets_slot hr hi) k)

theorem exec_rdbyte_of_ok {a : Count} (hv : s.cfgValid = true) (hr : s.pixels ≤ s.hw.nMax) (ha : a.toNat < s.bufLen) :
    exec (.rdbyte a) s = .next (s.respond .ok [byteBeat (readByte s.fb a.toNat)]) :=
  (guarded_of_ok (offsetStatus_ok_iff.2 ⟨hv, ha⟩)).trans (if_pos (hasOffsets_of_le hr ha))

end

/-! ### The bytes a command leaves -/

/-- A written slot holds the EncodedPixel, and no byte outside it changes (20_memory.md R71). -/
theorem readByte_memWrite_pixel (m : List Host.Cell) (hw : Config) (i : Nat) (c : Rgb) :
    (∀ j < 24, readByte (memWrite m (slotOffset i) (encodePixel hw c)) (slotOffset i + j) =
      (encodePixel hw c).getD j 0#8) ∧
    (∀ a, a < slotOffset i ∨ slotOffset i + 24 ≤ a →
      readByte (memWrite m (slotOffset i) (encodePixel hw c)) a = readByte m a) :=
  ⟨fun _ hj => readByte_memWrite_inside hj, fun _ ha => readByte_memWrite_outside ha⟩

/-- The bytes of CLEAR repeat the EncodedPixel with period 24. -/
theorem getD_clearBytes (hw : Config) {n i j : Nat} (c : Rgb) (hi : i < n) (hj : j < 24) :
    (clearBytes hw n c).getD (24 * i + j) 0#8 = (encodePixel hw c).getD j 0#8 := by
  rw [clearBytes_eq, getD_flatMap_slotBytes hw _ (List.getElem?_replicate_of_lt hi) hj]
  rfl

/-- Settles O29: the accepted CONFIG zeroes offsets 0 to BUFLEN - 1. -/
theorem configCreatesZeroBuffer : Obligations.ConfigCreatesZeroBuffer := by
  intro s n h1 h2
  have hread : ∀ a, readByte (memZero s.fb 0 (bufferSize n.toNat)) a =
      if a < 24 * (8 + n.toNat) then 0x00#8 else readByte s.fb a := fun a => by
    rw [readByte_memZero, Nat.zero_add]
    exact if_congr (and_iff_right (Nat.zero_le a)) rfl rfl
  exact ⟨_, exec_config_of_ok (configStatus_ok_iff.2 ⟨h1, h2⟩), fun a ha => (hread a).trans (if_pos ha),
    fun a ha => (hread a).trans (if_neg (Nat.not_lt.2 ha))⟩

/-- Settles O30: the one check of CONFIG gives InvalidSize. -/
theorem configRefusesSize : Obligations.ConfigRefusesSize := by
  intro s n h
  have hst : s.configStatus n = .invalidSize := if_pos h
  rw [exec_config_of_ne (by simp [hst]), hst]
  rfl

/-- Settles O31: byte `j` of slot `i` is byte `24 * i + j` of what CLEAR writes. -/
theorem clearWritesEverySlot : Obligations.ClearWritesEverySlot := by
  intro s c hv hr
  refine ⟨_, exec_clear_of_ok hv hr c, fun i hi j hj => ?_, fun a ha => readByte_memWrite_outside ?_⟩
  · rw [show slotOffset i + j = slotOffset 0 + (24 * i + j) by simp only [slotOffset_eq]; omega,
      readByte_memWrite_inside (by rw [length_clearBytes]; omega), getD_clearBytes _ _ hi hj]
  · rw [length_clearBytes]
    rw [slotOffset_eq s.pixels] at ha
    exact ha

/-- Settles O32: the slot write, then the response. -/
theorem setpxWritesItsSlot : Obligations.SetpxWritesItsSlot := fun s i c hv hr hi =>
  ⟨_, guarded_writePixel_of_ok hv hr hi c _, readByte_memWrite_pixel s.fb s.hw i.toNat c⟩

/-- Settles O33: the slot write, then the start of the stream. -/
theorem setpxfWritesSlotAndStartsStream : Obligations.SetpxfWritesSlotAndStartsStream := fun s i c hv hr hi =>
  ⟨_, guarded_writePixel_of_ok hv hr hi c _, readByte_memWrite_pixel s.fb s.hw i.toNat c⟩

/-- Settles O34: the beat is the byte, zero-extended. -/
theorem rdbyteReadsLiveByte : Obligations.RdbyteReadsLiveByte := fun _ _ hv hr ha =>
  ⟨_, exec_rdbyte_of_ok hv hr ha, BitVec.toNat_setWidth_of_le (by decide)⟩

/-- Settles O35: with a framebuffer the check passes. -/
theorem flushStartsStream : Obligations.FlushStartsStream := fun _ hv => guarded_of_ok (bufferStatus_ok_iff.2 hv)

/-! ### The strip a framebuffer shows -/

section
variable {s t : State} {strip : Option Strip}

/-- What a framebuffer is worth depends on the parameters, the configuration and FB alone. -/
theorem State.Framebuffer.of_eq (h : s.Framebuffer strip) (hhw : t.hw = s.hw) (hv : t.cfgValid = s.cfgValid)
    (hn : t.cfgN = s.cfgN) (hfb : t.fb = s.fb) : t.Framebuffer strip := by
  cases s
  cases t
  cases hhw
  cases hv
  cases hn
  cases hfb
  exact h

theorem State.Framebuffer.respond (h : s.Framebuffer strip) (st : Status) (beats : List Word) :
    (s.respond st beats).Framebuffer strip := h.of_eq rfl rfl rfl rfl

theorem State.Framebuffer.startStream (h : s.Framebuffer strip) : s.startStream.Framebuffer strip :=
  h.of_eq rfl rfl rfl rfl

/-- A checked command leaves the strip `after` if it does so when its checks pass, and if that is the strip as it was when
they fail. -/
theorem framebuffer_of_guarded {st : Status} {k : Outcome} {after : Option Strip} (hs : s.Framebuffer strip)
    (h : s.guarded st k = .next t) (hok : st = .ok → k = .next t → t.Framebuffer after)
    (hbad : st ≠ .ok → after = strip) : t.Framebuffer after := by
  rcases guarded_eq_next.1 h with ⟨hst, hk⟩ | ⟨hst, rfl⟩
  · exact hok hst hk
  · rw [hbad hst]
    exact hs.respond st []

/-- CLEAR's check fails only where no framebuffer exists (R33). -/
theorem State.Framebuffer.eq_none (hs : s.Framebuffer strip) (h : s.bufferStatus ≠ .ok) : strip = none := by
  cases strip with
  | none => rfl
  | some ps => exact absurd (bufferStatus_ok_iff.2 hs.1) h

/-- A pixel that fails the check of SETPX and SETPXF is beyond the strip, where `set_pixel` changes nothing. -/
theorem State.Framebuffer.set_eq_self {i : Count} (hs : s.Framebuffer strip) (h : s.pixelStatus i ≠ .ok) (c : Rgb) :
    strip.map (fun ps => ps.set i.toNat (some c)) = strip := by
  cases strip with
  | none => rfl
  | some ps =>
    obtain ⟨hv, hlen, -⟩ := hs
    have hle : ps.length ≤ i.toNat := by
      by_contra hlt
      exact h (pixelStatus_ok_iff.2 ⟨hv, by omega⟩)
    exact congrArg some (List.set_eq_of_length_le hle)

theorem State.Framebuffer.writePixel {i : Nat} (hs : s.Framebuffer strip) (hi : i < s.pixels) (c : Rgb) :
    State.Framebuffer { s with fb := memWrite s.fb (slotOffset i) (encodePixel s.hw c) }
      (strip.map (fun ps => ps.set i (some c))) := by
  cases strip with
  | none => exact hs
  | some ps => exact ⟨hs.1, shows_memWrite_pixel hs.2 hi c⟩

theorem State.Framebuffer.writeClear (hs : s.Framebuffer strip) (c : Rgb) :
    State.Framebuffer { s with fb := memWrite s.fb (slotOffset 0) (clearBytes s.hw s.pixels c) }
      (strip.map (fun ps => ps.map (fun _ => some c))) := by
  cases strip with
  | none => exact hs
  | some ps =>
    obtain ⟨hv, hshow⟩ := hs
    have hlen : ps.length = s.pixels := hshow.1
    simp only [Option.map_some, List.map_const', hlen]
    exact ⟨hv, shows_memWrite_clear hshow c⟩

/-- CLEAR refines `clear`. -/
theorem exec_clear_refines {c : Rgb} (hs : s.Framebuffer strip) (h : exec (.clear c) s = .next t) :
    t.Framebuffer (stripAfter s.hw strip (.clear c)) := by
  refine framebuffer_of_guarded hs h (fun _ hk => ?_) (fun hbad => by rw [hs.eq_none hbad]; rfl)
  obtain ⟨-, hnext⟩ := writeFB_eq_next.1 hk
  obtain rfl := Host.Outcome.next.inj hnext
  exact (hs.writeClear c).respond .ok []

/-- The slot write of SETPX and SETPXF refines `set_pixel`, whatever follows that keeps the strip. -/
theorem guarded_writePixel_refines {i : Count} {c : Rgb} {f : State → State} (hs : s.Framebuffer strip)
    (hf : ∀ {u : State} {after : Option Strip}, u.Framebuffer after → (f u).Framebuffer after)
    (h : s.guarded (s.pixelStatus i) (s.writeFB (slotOffset i.toNat) (encodePixel s.hw c) (fun u => .next (f u))) =
      .next t) : t.Framebuffer (strip.map (fun ps => ps.set i.toNat (some c))) := by
  refine framebuffer_of_guarded hs h (fun hok hk => ?_) (fun hbad => hs.set_eq_self hbad c)
  obtain ⟨-, hnext⟩ := writeFB_eq_next.1 hk
  obtain rfl := Host.Outcome.next.inj hnext
  exact hf (hs.writePixel (pixelStatus_ok_iff.1 hok).2 c)

/-- CONFIG refines `new`. -/
theorem exec_config_refines {n : Count} (hs : s.Framebuffer strip) (h : exec (.config n) s = .next t) :
    t.Framebuffer (stripAfter s.hw strip (.config n)) := by
  by_cases hok : s.configStatus n = .ok
  · rw [exec_config_of_ok hok] at h
    obtain rfl := Host.Outcome.next.inj h
    rw [stripAfter, if_pos (configStatus_ok_iff.1 hok)]
    have hnew : (s.configured n).Framebuffer (some (List.replicate n.toNat none)) := ⟨rfl, configured_shows s n⟩
    exact hnew.respond .ok []
  · rw [exec_config_of_ne hok] at h
    obtain rfl := Host.Outcome.next.inj h
    rw [stripAfter, if_neg (mt configStatus_ok_iff.2 hok)]
    exact hs.respond _ []

/-- A pure command and RDBYTE end in a response and leave the strip as it is. -/
theorem exec_pure_refines {i : Instr} (hs : s.Framebuffer strip) (h : exec i s = .next t)
    (hi : (∃ c, i = .rgb2hsl c) ∨ (∃ v, i = .hsl2rgb v) ∨ (∃ c lv, i = .applyl c lv) ∨ (∃ v, i = .encch v) ∨
      (∃ c, i = .encpx c) ∨ (∃ n, i = .bufsz n) ∨ (∃ a, i = .rdbyte a)) : t.Framebuffer strip := by
  obtain ⟨st, beats, rfl, -⟩ := pureCommandsKeepState i s t hi h
  exact hs.respond st beats

end

/-- Settles O43: CONFIG is `new`, CLEAR is `clear`, SETPX and SETPXF are `set_pixel`, and the other commands leave FB and
the configuration as they are. -/
theorem commandsRefineStrip : Obligations.CommandsRefineStrip := by
  intro i s t strip hs h
  cases i with
  | rgb2hsl c => exact exec_pure_refines hs h (by simp)
  | hsl2rgb v => exact exec_pure_refines hs h (by simp)
  | applyl c lv => exact exec_pure_refines hs h (by simp)
  | encch v => exact exec_pure_refines hs h (by simp)
  | encpx c => exact exec_pure_refines hs h (by simp)
  | bufsz n => exact exec_pure_refines hs h (by simp)
  | config n => exact exec_config_refines hs h
  | clear c => exact exec_clear_refines hs h
  | setpx n c => exact guarded_writePixel_refines hs (fun hu => hu.respond .ok []) h
  | setpxf n c => exact guarded_writePixel_refines hs (fun hu => hu.startStream) h
  | rdbyte a => exact exec_pure_refines hs h (by simp)
  | flush =>
    refine framebuffer_of_guarded hs h (fun _ hk => ?_) (fun _ => rfl)
    obtain rfl := Host.Outcome.next.inj hk
    exact hs.startStream

end Sys2Proof.Machine
end

section
/-!
PROOFS. The stream (42_framebuffer.md R190 to R200). First what one turn does while PHASE = STREAM, then a run of turns
through which a frame goes on, as the one state update `State.afterTurns`; the two frames are that run and TRANSPORT's last
answer.
-/
namespace Sys2Proof.Machine

/-! ### One turn of a stream -/

section
variable {s : State} {ts : List Turn}

/-- A step whose turn is TRANSPORT's is its answer. -/
theorem step_of_answer {a : Answer} (ht : s.turns = .answer a :: ts) :
    step s = State.answered { s with turns := ts } a := by
  simp only [step, ht, State.takeTurn]

theorem answered_of_live (hp : s.phase = .stream) (hl : s.pos < s.bufLen) (a : Answer) : s.answered a = s.byteStep a := by
  simp only [State.answered, hp, if_pos hl]

theorem answered_of_end (hp : s.phase = .stream) (hl : s.bufLen ≤ s.pos) (a : Answer) : s.answered a = s.endStep a := by
  simp only [State.answered, hp, if_neg (Nat.not_lt.2 hl)]

/-- TRANSPORT may fail at any byte and at the end, and CORE does the same (R196, R198). -/
theorem answered_fail (hp : s.phase = .stream) (terr : Word) :
    s.answered (.fail terr) = .next (s.endStream .transportError [terr]) := by
  rcases Nat.lt_or_ge s.pos s.bufLen with hl | hl
  · exact answered_of_live hp hl _
  · exact answered_of_end hp hl _

end

/-- Settles O44: the byte at POS is below BUFLEN, so FB has it. -/
theorem acceptedByteIsEmitted : Obligations.AcceptedByteIsEmitted := by
  intro s ts hp hr hl ht
  rw [step_of_answer ht, answered_of_live (s := { s with turns := ts }) hp hl]
  exact if_pos (hasOffsets_of_le hr hl)

/-- Settles O45: the byte step and the end step answer a failure alike. -/
theorem transportFailureChangesOnlyPhase : Obligations.TransportFailureChangesOnlyPhase := by
  intro s terr ts hp ht
  exact (step_of_answer ht).trans (answered_fail (s := { s with turns := ts }) hp terr)

/-- Settles O46: at POS = BUFLEN it is the end step. -/
theorem completionEndsFrame : Obligations.CompletionEndsFrame := by
  intro s ts hp hl ht
  exact (step_of_answer ht).trans (answered_of_end (s := { s with turns := ts }) hp hl.ge _)

/-- Settles O50: no command is accepted during a stream, and neither an offer nor TRANSPORT's answer writes FB. -/
theorem streamNeverWritesBuffer : Obligations.StreamNeverWritesBuffer := by
  intro s t hp hreset h
  rcases step_cases h with rfl | ⟨o, -, rfl⟩ | ⟨o, u, ha, -⟩ | ⟨a, -, hans⟩ | ⟨g, hg, -⟩
  · exact ⟨rfl, rfl, rfl⟩
  · exact ⟨rfl, rfl, rfl⟩
  · obtain ⟨hidle, -⟩ := ha
    simp [hp] at hidle
  · obtain ⟨-, hfb, hn, hv, -, -⟩ := answered_keeps hans
    exact ⟨hfb, hn, hv⟩
  · exact absurd hg (hreset g)

/-- Settles O47: by induction on the number of steps, each of which passes a turn of the hosts or leaves the state as it
is. -/
theorem silentTransportHoldsStream : Obligations.SilentTransportHoldsStream := by
  intro k
  induction k with
  | zero => exact fun s hp _ => ⟨s, rfl, hp, rfl, rfl, rfl⟩
  | succ k ih =>
    intro s hp hsilent
    obtain ⟨hnone, hgrant, hoffer⟩ := streamAcceptsNoCommand s hp
    cases hts : s.turns with
    | nil =>
      rw [runSteps_succ_of_next (hnone hts)]
      exact ih s hp hsilent
    | cons t ts =>
      have hrest : ∀ t ∈ ts, (∃ h w, t = .offer h w) ∨ (∃ h, t = .grant h) := fun t ht =>
        hsilent t (by simp [hts, ht])
      rcases hsilent t (by simp [hts]) with ⟨h, w, rfl⟩ | ⟨h, rfl⟩
      · rw [runSteps_succ_of_next (hoffer h w ts hts)]
        exact ih _ hp hrest
      · rw [runSteps_succ_of_next (hgrant h ts hts)]
        exact ih _ hp hrest

/-! ### A frame that goes on -/

/-- The state after the turns `during`, through which a frame goes on, with `ts` still to come: per byte TRANSPORT accepts
POS and the observation grow by one, and what the hosts offer waits (R37, R75, R196). -/
def State.afterTurns (s : State) (during ts : List Turn) : State :=
  { s with
    turns := ts
    pos := s.pos + during.count (.answer .accept)
    waiting := s.waiting ++ offersIn during
    trace := ((memRead s.fb s.pos (during.count (.answer .accept))).map Event.emit).reverse ++ s.trace }

theorem State.afterTurns_nil (s : State) : s.afterTurns [] s.turns = s := by
  simp [State.afterTurns, offersIn, memRead]

/-- First some turns, then some more, are all of them: the bytes follow each other, and the offers too. -/
theorem State.afterTurns_append (s : State) (during during' ts ts' : List Turn) :
    (s.afterTurns during ts).afterTurns during' ts' = s.afterTurns (during ++ during') ts' := by
  simp [State.afterTurns, offersIn, memRead_add, Nat.add_assoc]

section
variable {s : State}

/-- One such turn. A byte TRANSPORT accepts must be one that the buffer has. -/
theorem step_of_keepsFrame {t : Turn} {ts : List Turn} (hp : s.phase = .stream) (hr : s.pixels ≤ s.hw.nMax)
    (hl : s.pos + [t].count (.answer .accept) ≤ s.bufLen) (hk : t.KeepsFrame) (ht : s.turns = t :: ts) :
    step s = .next (s.afterTurns [t] ts) := by
  obtain ⟨-, hgrant, hoffer⟩ := streamAcceptsNoCommand s hp
  rcases hk with rfl | ⟨h, w, rfl⟩ | ⟨h, rfl⟩
  · rw [acceptedByteIsEmitted s ts hp hr (by rwa [List.count_singleton_self] at hl) ht]
    simp [State.afterTurns, offersIn, memRead]
  · rw [hoffer h w ts ht]
    simp [State.afterTurns, offersIn, memRead]
  · rw [hgrant h ts ht]
    simp [State.afterTurns, offersIn, memRead]

/-- A frame goes on through any such turns, as long as TRANSPORT accepts no more bytes than the buffer has. -/
theorem runSteps_keepsFrame {during ts : List Turn} (k : Nat) (hp : s.phase = .stream) (hr : s.pixels ≤ s.hw.nMax)
    (hl : s.pos + during.count (.answer .accept) ≤ s.bufLen) (hk : ∀ t ∈ during, t.KeepsFrame)
    (ht : s.turns = during ++ ts) : runSteps (during.length + k) s = runSteps k (s.afterTurns during ts) := by
  induction during generalizing s with
  | nil =>
    rw [← show s.turns = ts from ht, State.afterTurns_nil, List.length_nil, Nat.zero_add]
  | cons t during ih =>
    have hl' : s.pos + [t].count (.answer .accept) + during.count (.answer .accept) ≤ s.bufLen := by
      rwa [Nat.add_assoc, ← List.count_append]
    have hstep : step s = .next (s.afterTurns [t] (during ++ ts)) :=
      step_of_keepsFrame hp hr (Nat.le_of_add_right_le hl') (hk t (by simp)) ht
    have hrest : ∀ u ∈ during, u.KeepsFrame := fun u hu => hk u (by simp [hu])
    rw [List.length_cons, Nat.add_right_comm, runSteps_succ_of_next hstep,
      ih (s := s.afterTurns [t] (during ++ ts)) hp hr hl' hrest rfl, State.afterTurns_append, List.singleton_append]

end

/-- Settles O48: the frame goes on for BUFLEN bytes, and the completion ends it. -/
theorem wholeFrameIsSnapshot : Obligations.WholeFrameIsSnapshot := by
  intro s during ts hp hpos hr hk hcount ht
  have hend : (s.afterTurns during (.answer .done :: ts)).pos = s.bufLen := by
    rw [State.afterTurns, hpos, hcount, Nat.zero_add]
  have hlast := completionEndsFrame (s.afterTurns during (.answer .done :: ts)) ts hp hend rfl
  rw [runSteps_keepsFrame 1 hp hr (by omega) hk ht, runSteps_succ_of_next hlast]
  simp [State.afterTurns, hpos, hcount]

/-- Settles O49: the frame goes on for `k` bytes, and the failure ends it. -/
theorem failedFrameIsPrefix : Obligations.FailedFrameIsPrefix := by
  intro s k terr during ts hp hpos hr hle hk hcount ht
  have hlast := transportFailureChangesOnlyPhase (s.afterTurns during (.answer (.fail terr) :: ts)) terr ts hp rfl
  rw [runSteps_keepsFrame 1 hp hr (by omega) hk ht, runSteps_succ_of_next hlast]
  simp [State.afterTurns, hpos, hcount]

end Sys2Proof.Machine
end

section
/-!
The requests to a LedUnit (48_host_protocol.md R220, R225, R226).
-/
namespace Sys2Proof.Machine

theorem foldl_afterRequest_maxBrightness (u : LedUnit) (qs : List Request) :
    (qs.foldl LedUnit.afterRequest u).maxBrightness = u.maxBrightness := by
  induction qs generalizing u with
  | nil => rfl
  | cons q qs ih => rw [List.foldl_cons, ih, afterRequest_maxBrightness]

/-- Settles O60: no request writes the authored colour or the limit, so after any requests they are those of `u`; the rest
is one row of R225's table for each kind of request. -/
theorem mainBrightnessDiscardsOverrides : Obligations.MainBrightnessDiscardsOverrides := by
  intro u qs v w
  rw [← foldl_afterRequest_origin u qs, ← foldl_afterRequest_maxBrightness u qs]
  exact ⟨rfl, rfl, rfl, rfl⟩

end Sys2Proof.Machine
end

section
/-!
PROOFS. The status of a command (60_exceptions.md R240 to R243): what the checks give, that the status they give ends the
command, and that a command ends with a status other than OK in no other way.
-/
namespace Sys2Proof.Machine

/-- Settles O11: the codes are those of the definition, and these six are all. -/
theorem statusCodesOfTable : Obligations.StatusCodesOfTable :=
  ⟨rfl, rfl, rfl, rfl, rfl, rfl, fun st => by cases st <;> decide⟩

/-! ### The checks that fail -/

section
variable {s : State}

/-- A check that fails ends the command with its status: no beats, no state written (R241). -/
theorem guarded_of_status {st e : Status} (k : Outcome) (h : st = e) (he : e ≠ .ok) :
    s.guarded st k = .next (s.respond e []) := by
  subst h
  exact guarded_of_ne he

theorem bufferStatus_of_unconfigured (hv : s.cfgValid = false) : s.bufferStatus = .notConfigured := by
  simp [State.bufferStatus, hv]

theorem pixelStatus_of_unconfigured (hv : s.cfgValid = false) (i : Count) : s.pixelStatus i = .notConfigured := by
  simp [State.pixelStatus, hv]

theorem offsetStatus_of_unconfigured (hv : s.cfgValid = false) (a : Count) : s.offsetStatus a = .notConfigured := by
  simp [State.offsetStatus, hv]

theorem pixelStatus_of_pixels_le {i : Count} (hv : s.cfgValid = true) (hi : s.pixels ≤ i.toNat) :
    s.pixelStatus i = .indexOutOfRange := by
  simp [State.pixelStatus, hv, hi]

theorem offsetStatus_of_bufLen_le {a : Count} (hv : s.cfgValid = true) (ha : s.bufLen ≤ a.toNat) :
    s.offsetStatus a = .indexOutOfRange := by
  simp [State.offsetStatus, hv, ha]

end

/-- Settles O36: each of the five commands checks CFG_VALID first. -/
theorem unconfiguredCommandsRefused : Obligations.UnconfiguredCommandsRefused := by
  intro s c n hv
  have hne : Status.notConfigured ≠ .ok := by decide
  have hbuffer := bufferStatus_of_unconfigured hv
  have hpixel := pixelStatus_of_unconfigured hv n
  have hoffset := offsetStatus_of_unconfigured hv n
  exact ⟨guarded_of_status _ hbuffer hne, guarded_of_status _ hpixel hne, guarded_of_status _ hpixel hne,
    guarded_of_status _ hoffset hne, guarded_of_status _ hbuffer hne⟩

/-- Settles O37: with a framebuffer the range is what the check looks at. -/
theorem outOfRangeRefused : Obligations.OutOfRangeRefused := by
  intro s c n hv
  have hne : Status.indexOutOfRange ≠ .ok := by decide
  refine ⟨fun hn => ?_, fun hn => ?_⟩
  · have hpixel := pixelStatus_of_pixels_le hv hn
    exact ⟨guarded_of_status _ hpixel hne, guarded_of_status _ hpixel hne⟩
  · exact guarded_of_status _ (offsetStatus_of_bufLen_le hv hn) hne

/-! ### A failed command -/

/-- `t` has observed since `s` what a command shows whose checks passed: an OK response, or none yet, when it started a
stream (R98, R195). -/
def State.AnswersOk (s t : State) : Prop :=
  t.trace = s.trace ∨ ∃ beats, t.trace = .respond s.client .ok beats :: s.trace

section
variable {s t : State}

theorem answersOk_of_respond {u : State} {beats : List Word}
    (h : Host.Outcome.next (u.respond .ok beats) = (.next t : Outcome)) (hc : u.client = s.client)
    (htr : u.trace = s.trace) : s.AnswersOk t := by
  obtain rfl := Host.Outcome.next.inj h
  exact .inr ⟨beats, by rw [State.respond_trace, hc, htr]⟩

theorem answersOk_of_startStream {u : State} (h : Host.Outcome.next u.startStream = (.next t : Outcome))
    (htr : u.trace = s.trace) : s.AnswersOk t := by
  obtain rfl := Host.Outcome.next.inj h
  exact .inl htr

theorem raises_or_answersOk_of_guarded {st : Status} {k : Outcome} (h : s.guarded st k = .next t)
    (hk : k = .next t → s.AnswersOk t) : (∃ e, t = s.raise e) ∨ s.AnswersOk t := by
  rcases guarded_eq_next.1 h with ⟨-, hnext⟩ | ⟨-, hraise⟩
  · exact .inr (hk hnext)
  · exact .inl ⟨st, hraise⟩

/-- A command raises the status its checks gave, or they passed. -/
theorem exec_raises_or_answersOk {i : Instr} (h : exec i s = .next t) : (∃ e, t = s.raise e) ∨ s.AnswersOk t := by
  cases i with
  | rgb2hsl c => exact .inr (answersOk_of_respond h rfl rfl)
  | hsl2rgb v => exact raises_or_answersOk_of_guarded h fun hk => answersOk_of_respond hk rfl rfl
  | applyl base lv => exact .inr (answersOk_of_respond h rfl rfl)
  | encch v => exact .inr (answersOk_of_respond h rfl rfl)
  | encpx c => exact .inr (answersOk_of_respond h rfl rfl)
  | bufsz n => exact .inr (answersOk_of_respond h rfl rfl)
  | config n =>
    by_cases hok : s.configStatus n = .ok
    · exact .inr (answersOk_of_respond ((exec_config_of_ok hok).symm.trans h) rfl rfl)
    · exact .inl ⟨_, (Host.Outcome.next.inj ((exec_config_of_ne hok).symm.trans h)).symm⟩
  | clear c =>
    exact raises_or_answersOk_of_guarded h fun hk => answersOk_of_respond (writeFB_eq_next.1 hk).2 rfl rfl
  | setpx n c =>
    exact raises_or_answersOk_of_guarded h fun hk => answersOk_of_respond (writeFB_eq_next.1 hk).2 rfl rfl
  | setpxf n c =>
    exact raises_or_answersOk_of_guarded h fun hk => answersOk_of_startStream (writeFB_eq_next.1 hk).2 rfl
  | rdbyte a =>
    exact raises_or_answersOk_of_guarded h fun hk => answersOk_of_respond (readFB_eq_next.1 hk).2 rfl rfl
  | flush => exact raises_or_answersOk_of_guarded h fun hk => answersOk_of_startStream hk rfl

end

/-- Settles O38: of the two ways to end only `raise` gives a status other than OK. -/
theorem failedCommandWritesNothing : Obligations.FailedCommandWritesNothing := by
  intro i s t cl st beats h htr hne
  rcases exec_raises_or_answersOk h with ⟨e, rfl⟩ | hsame | ⟨bs, hok⟩
  · obtain ⟨hevent, -⟩ := List.cons.inj ((s.raise_trace e).symm.trans htr)
    obtain ⟨rfl, rfl, rfl⟩ := Event.respond.inj hevent
    exact ⟨rfl, rfl, rfl⟩
  · exact absurd (htr.symm.trans hsame) (List.cons_ne_self _ _)
  · obtain ⟨hevent, -⟩ := List.cons.inj (hok.symm.trans htr)
    obtain ⟨-, rfl, -⟩ := Event.respond.inj hevent
    exact absurd rfl hne

end Sys2Proof.Machine
end

section
/-!
PROOFS. Reset in the middle of a run (70_reset_and_hazards.md R270 to R272). That FB may then hold any bytes at all (R46)
is that a memory in canonical form is one a reset can leave: its own cells, written in order into an empty memory, give it
back.
-/
namespace Sys2Proof.Machine

/-! ### The memory of a list of cells -/

/-- A nonzero byte written beyond every listed offset is a new last entry. -/
theorem memWrite_beyond {m : List Host.Cell} {x : Nat} {b : Byte} (hm : ∀ c ∈ m, c.1 < x) (hb : b ≠ 0#8) :
    memWrite m x [b] = m ++ [(x, b)] := by
  have hbelow : cellsBelow m x = m := List.filter_eq_self.2 fun c hc => decide_eq_true (hm c hc)
  have hfrom : cellsFrom m (x + 1) = [] := List.filter_eq_nil_iff.2 fun c hc => by
    have := hm c hc
    simp only [decide_eq_true_eq]
    omega
  have hcell : cellsOf x [b] = [(x, b)] := if_neg hb
  rw [memWrite, hbelow, hcell, List.length_singleton, hfrom, List.append_nil]

theorem memOfCells_concat {size : Nat} (m : List Host.Cell) {c : Host.Cell} (hc : c.1 < size) :
    memOfCells size (m ++ [c]) = memWrite (memOfCells size m) c.1 [c.2] := by
  rw [memOfCells, List.foldl_concat, if_pos hc, memOfCells]

/-- A memory in canonical form is the memory of its own cells. -/
theorem memOfCells_of_wf {size : Nat} {m : List Host.Cell} (hm : Memory.wf m) (hin : ∀ c ∈ m, c.1 < size) :
    memOfCells size m = m := by
  induction m using List.reverseRecOn with
  | nil => rfl
  | append_singleton m c ih =>
    obtain ⟨hrising, hnonzero⟩ := hm
    obtain ⟨hinit, -, hlast⟩ := List.pairwise_append.1 hrising
    have hmem : memOfCells size m = m :=
      ih ⟨hinit, fun d hd => hnonzero d (by simp [hd])⟩ fun d hd => hin d (by simp [hd])
    rw [memOfCells_concat m (hin c (by simp)), hmem]
    exact memWrite_beyond (fun d hd => hlast d hd c (by simp)) (hnonzero c (by simp))

/-! ### The step that asserts reset -/

theorem step_of_reset {s : State} {g : List Host.Cell} {ts : List Turn} (ht : s.turns = .reset g :: ts) :
    step s = .next (State.doReset { s with turns := ts } g) := by
  simp only [step, ht, State.takeTurn]

/-- Settles O52: the step is `doReset` in every state, and contents `m` are left by a reset whose turn names them. -/
theorem resetAtAnyTime : Obligations.ResetAtAnyTime := by
  intro s ts
  refine ⟨fun g ht => ⟨memOfCells s.hw.fbSize g, step_of_reset ht⟩, fun m hm hin => ⟨m, ?_⟩⟩
  have hstep : step { s with turns := .reset m :: ts } = .next (State.doReset { s with turns := ts } m) :=
    step_of_reset rfl
  rw [hstep, State.doReset, memOfCells_of_wf hm hin]

end Sys2Proof.Machine
end
